-- ==== Sys2Proof/Word.lean ====
section
/-! DEFINITION. Word.lean: the widths of the block (spec/00_scope.md rule R8): the byte, the command word
and the 256-entry table of bytes. -/

namespace Sys2Proof

/-- BYTE: every data value of the block, "an integer in 0..255" (R8, R9). -/
abbrev Byte := BitVec 8

/-- CMD_WIDTH: one command word (R8, R70). -/
abbrev Word := BitVec 16

/-- TABLE_SIZE, KEYMEM_SIZE: "a fixed array of 256 entries, every one of which holds a byte" (R21, R25).
The spec asks for a total table with no unset entry (R21, U1), so no entry is an Option (notes/assumptions/10.md). -/
abbrev Table := Vector Byte 256

end Sys2Proof
end

