-- ==== Sys2Proof/Config.lean ====
section
/-! DEFINITION. Config.lean: what the spec leaves open, as constants without a body. No proof can see a value of
any of them, so a claim that mentions one is true whatever the value is. -/

namespace Sys2Proof

/-- S right after the n-th hardware reset: "unspecified (each entry any byte, not necessarily a permutation, not
necessarily the same at two resets)" (R36, U10; notes/assumptions/2.md). -/
opaque Config.resetS : Nat → Table

/-- X right after the n-th hardware reset: unspecified (R36, U10; notes/assumptions/2.md). -/
opaque Config.resetX : Nat → Byte

/-- Y right after the n-th hardware reset: unspecified (R36, U10; notes/assumptions/2.md). -/
opaque Config.resetY : Nat → Byte

/-- KEYMEM right after the n-th hardware reset: unspecified (R36, U10; notes/assumptions/2.md). -/
opaque Config.resetKeymem : Nat → Table

/-- HEX_DECODE_UPPERCASE: whether the host's hex decoder accepts upper-case digits (R180, D27, U7). -/
opaque Config.hexDecodeUppercase : Bool

/-- Whether the host's Base64 decoder accepts a last group whose unused low bits are not zero: part of "everything
beyond unpadded input" (U6; notes/assumptions/15.md). -/
opaque Config.base64TailBits : Bool

/-- Whether the host's Base64 decoder, with this translate flag, accepts characters of the other alphabet: `+` and `/` with
the flag set, `-` and `_` without (U6, N10; notes/assumptions/15.md). -/
opaque Config.base64MixedAlphabet : Bool → Bool

/-- Whether the host's Base64 decoder accepts `=` padding where the translate flag is set (N10; notes/assumptions/15.md). -/
opaque Config.base64PaddedTranslated : Bool

/-- Whether the host's Base64 decoder skips white space (U6, N10; notes/assumptions/15.md). -/
opaque Config.base64Whitespace : Bool

/-- The n-th draw of the host's key generator, as an offset into the printable range 33..126 (R182, U4). -/
opaque Config.keyDraw : Nat → Fin 94

end Sys2Proof
end

