-- ==== Sys2Proof/Syntax.lean ====
section
/-! DEFINITION. Syntax.lean: the eight host commands of spec/30_encoding.md rule R73, one constructor per row of
spec/opcode_table.json. -/

namespace Sys2Proof

/-- A command. Format N commands take nothing from the host; format B commands take the byte `CMD[7:0]` as it
stands (R70 to R72). -/
inductive Instr where
  /-- NOP: do nothing (R143). -/
  | nop
  /-- KCLR: start loading a key (R100). -/
  | kclr
  /-- KPUSH imm8: append one key byte (R101). -/
  | kpush (imm8 : Byte)
  /-- START: run the key schedule and open an invocation (R102). -/
  | start
  /-- DATA imm8: process one byte of the message (R120). -/
  | data (imm8 : Byte)
  /-- FINISH: close the invocation (R142). -/
  | finish
  /-- RDST sel: read status; `sel` is `imm8`, legal values 0 and 1 (R145). -/
  | rdst (sel : Byte)
  /-- RST: soft reset (R146). -/
  | rst
deriving DecidableEq, Repr

end Sys2Proof
end

