-- ==== Sys2Proof/WellFormed.lean ====
section
/-! DEFINITION. WellFormed.lean: which commands have an encoding that is a command (spec/30_encoding.md rules R72
and R74). -/

namespace Sys2Proof

/-- The check on a command's operand. KPUSH and DATA take every byte; "For RDST only `imm8` = 0 and 1 are legal"
(R72). The format-N commands have no operand to check. -/
def Instr.wellFormed : Instr → Bool
  | .nop => true
  | .kclr => true
  | .kpush _ => true
  | .start => true
  | .data _ => true
  | .finish => true
  | .rdst sel => decide (sel.toNat ≤ 1)
  | .rst => true

end Sys2Proof
end

