-- ==== Sys2Proof/Decode.lean ====
section
/-! DEFINITION. Decode.lean: the command word (spec/30_encoding.md rules R70 to R77): its decoder, total on the 65536
words, and its encoder, both written from the table of rule R73. -/

namespace Sys2Proof

/-- Why a word is no command (R74): class (1) or class (2). -/
inductive Reject where
  /-- Class (1): `op` in 0x08..0xFF (R75). -/
  | reservedOpcode
  /-- Class (2): a legal opcode whose low byte is not allowed for it (R76). -/
  | reservedOperand
deriving DecidableEq, Repr

/-- `op = CMD[15:8]` (R70). -/
def opcodeOf (w : Word) : Byte := w.extractLsb' 8 8

/-- `CMD[7:0]`: `zero` in format N, `imm8` in format B (R70). -/
def lowByteOf (w : Word) : Byte := w.extractLsb' 0 8

/-- The word with the opcode byte in bits 15:8 and the low byte in bits 7:0 (R70). Over a byte-wide channel the
opcode byte goes first (R54). -/
def wordOf (op lo : Byte) : Word := op ++ lo

/-- A format-N command is itself only when its low byte is 0x00 (R71). -/
def decodeFormatN (lo : Byte) (i : Instr) : Except Reject Instr :=
  if lo = 0x00#8 then .ok i else .error .reservedOperand

/-- RDST is itself only for the selectors 0 and 1 (R72). -/
def decodeRdst (lo : Byte) : Except Reject Instr :=
  if lo.toNat ≤ 1 then .ok (.rdst lo) else .error .reservedOperand

/-- The decoder: every word falls into exactly one of the three classes of R74. No state is read (R74), there is
one length and no prefix or mode (R77). -/
def decode (w : Word) : Except Reject Instr :=
  if opcodeOf w = 0x00#8 then decodeFormatN (lowByteOf w) .nop
  else if opcodeOf w = 0x01#8 then decodeFormatN (lowByteOf w) .kclr
  else if opcodeOf w = 0x02#8 then .ok (.kpush (lowByteOf w))
  else if opcodeOf w = 0x03#8 then decodeFormatN (lowByteOf w) .start
  else if opcodeOf w = 0x04#8 then .ok (.data (lowByteOf w))
  else if opcodeOf w = 0x05#8 then decodeFormatN (lowByteOf w) .finish
  else if opcodeOf w = 0x06#8 then decodeRdst (lowByteOf w)
  else if opcodeOf w = 0x07#8 then decodeFormatN (lowByteOf w) .rst
  else .error .reservedOpcode

/-- The encoder: the word of the table of R73 with the operand byte in `CMD[7:0]`. -/
def encode : Instr → Word
  | .nop => wordOf 0x00#8 0x00#8
  | .kclr => wordOf 0x01#8 0x00#8
  | .kpush imm8 => wordOf 0x02#8 imm8
  | .start => wordOf 0x03#8 0x00#8
  | .data imm8 => wordOf 0x04#8 imm8
  | .finish => wordOf 0x05#8 0x00#8
  | .rdst sel => wordOf 0x06#8 sel
  | .rst => wordOf 0x07#8 0x00#8

/-- The command word whose bits are `w`, of which the opcode table gives `nbits`; the bits above `nbits` are 0. A
command is one 16-bit value, its bits numbered as the table numbers them (R70, R81). -/
def tableWord (nbits w : Nat) : Word := BitVec.ofNat 16 (w % 2 ^ nbits)

/-- The instruction the decoder reads from a table word; none where it rejects, and none for a row of more than 16
bits, of which the table has none (R77). -/
def decodeTableWord (nbits w : Nat) : Option Instr :=
  if nbits ≤ 16 then
    match decode (tableWord nbits w) with
    | .ok i => some i
    | .error _ => none
  else none

end Sys2Proof
end

