-- ==== Sys2Proof/Machine/State.lean ====
section
/-! DEFINITION. Machine/State.lean: the state of one block instance (spec/10_state.md rule R20), its two ports
(spec/20_memory.md rules R50 and R51), and the host at the other end of them, all as plain data. -/

namespace Sys2Proof.Machine

/-- PHASE (R27). Its fourth 2-bit value "never occurs" (R20) and has no constructor (U13). -/
inductive Phase where
  /-- IDLE (0): no invocation is open; the key may be loaded. -/
  | idle
  /-- RUN (1): an invocation is open; S, X and Y are live. -/
  | run
  /-- FAULT (2): a fault was taken; only NOP, RDST and RST have an effect. -/
  | fault
deriving DecidableEq, Repr

/-- ERRCODE (R28, R201). The codes 5 to 7 "never occur" (R201) and have no constructor (U13). -/
inductive ErrCode where
  /-- NONE (0). -/
  | none
  /-- ILLEGAL_OPCODE (1). -/
  | illegalOpcode
  /-- RESERVED_OPERAND (2). -/
  | reservedOperand
  /-- PHASE_VIOLATION (3). -/
  | phaseViolation
  /-- BAD_KEYLEN (4). -/
  | badKeylen
deriving DecidableEq, Repr

/-- One move of the world outside the block (R50, R51, R230): what a host can do at the two ports, and the RESET
input. -/
inductive HostEvent where
  /-- The host presents a word on the command port (R51). -/
  | command (w : Word)
  /-- The host takes the byte that stands on the response port (R51, R236). -/
  | take
  /-- The platform asserts RESET (R230). -/
  | reset
deriving DecidableEq, Repr

/-- The keystream engine's state: S, X, Y (R21 to R23). -/
structure CipherState where
  S : Table
  X : Byte
  Y : Byte
deriving DecidableEq, Repr

/-- The state. The first seven fields are the spec's seven items (R20); `RSP` is the response port's one place
(R51, R236); the last three belong to the model, not to the block (notes/assumptions/1.md and 2.md). -/
structure State where
  /-- S, the permutation table (R21). -/
  S : Table
  /-- X, running index (R22); 0xFF stands for -1. -/
  X : Byte
  /-- Y, running index (R23); 0xFF stands for -1. -/
  Y : Byte
  /-- KEYMEM, the key memory (R25). -/
  KEYMEM : Table
  /-- KLEN, 0..256; the 9-bit values 257..511 "never occur" (R20, R26, U13). -/
  KLEN : Fin 257
  /-- PHASE (R27). -/
  PHASE : Phase
  /-- ERRCODE (R28). -/
  ERRCODE : ErrCode
  /-- The response byte presented and not yet taken, if any (R51, R231, R236; notes/assumptions/3.md). -/
  RSP : Option Byte
  /-- The moves the outside world has still to make, next one first. -/
  host : List HostEvent
  /-- The response bytes the host has taken so far, first one first. -/
  received : List Byte
  /-- How many hardware resets there have been; picks the unspecified values of the next one (R36). -/
  resets : Nat
deriving DecidableEq, Repr

/-- What stops the machine: nothing. Every word leads to a next state: a command, the block's own fault entry (R205), or
a refusal in phase FAULT that changes no state (R207); a block that waits keeps its state (R147, R236). So this
type has no constructor, and no step can answer a fault (safe; notes/assumptions/20.md). -/
inductive Fault
deriving DecidableEq, Repr

/-- Why the model gives an instruction no meaning. -/
inductive Refusal where
  /-- Raised by exec's arm of an instruction that has no meaning yet; no arm raises it (safe). -/
  | notModelled (mnemonic : String)
deriving DecidableEq, Repr

/-- The block right after hardware reset number `n`: "PHASE <- IDLE, ERRCODE <- NONE, KLEN <- 0 and leaves S, X, Y and
KEYMEM unspecified"; the response port is empty (R36, R231). The unspecified items take the opaque values
of Config for this reset; the two lists belong to the host and are handed through. -/
def State.afterReset (n : Nat) (host : List HostEvent) (received : List Byte) : State where
  S := Config.resetS n
  X := Config.resetX n
  Y := Config.resetY n
  KEYMEM := Config.resetKeymem n
  KLEN := 0
  PHASE := .idle
  ERRCODE := .none
  RSP := none
  host := host
  received := received
  resets := n + 1

/-- The machine right after its power-on reset (R230, R231), before the host has moved (R232: "after reset the
block waits for the host's first command"). -/
def State.reset : State := State.afterReset 0 [] []

end Sys2Proof.Machine
end

