-- ==== Sys2Proof/Machine/Ops.lean ====
section
/-! DEFINITION. Machine/Ops.lean: the shared operations: the tables S and KEYMEM, the response port, fault entry and the
ways out of a fault, the two ports' moves. -/

namespace Sys2Proof.Machine

/-! ### The tables (R10, R21, R25, R52) -/

/-- `T[i]` for an index in 0..255: every access hits an entry that holds a byte (R52). -/
def tableGet (t : Table) (i : Byte) : Byte := t[i.toNat]'i.isLt

/-- `T[i] <- v` (R11). -/
def tableSet (t : Table) (i v : Byte) : Table := t.set i.toNat v i.isLt

/-- `swap(T, p, q)`: "`t <- T[p]; T[p] <- T[q]; T[q] <- t`" (R10). -/
def tableSwap (t : Table) (p q : Byte) : Table :=
  tableSet (tableSet t p (tableGet t q)) q (tableGet t p)

/-- The identity fill: "`for I in 0..255: S[I] <- I`" (R91). -/
def identityTable : Table :=
  ⟨((List.range 256).map (BitVec.ofNat 8)).toArray, by simp⟩

/-! ### The cipher state (R20 to R23) -/

/-- S, X and Y as the keystream engine sees them. -/
def State.cipher (s : State) : CipherState := { S := s.S, X := s.X, Y := s.Y }

/-- Write S, X and Y. -/
def State.withCipher (s : State) (c : CipherState) : State := { s with S := c.S, X := c.X, Y := c.Y }

/-! ### The response port -/

/-- `emit(b)` presents byte b on the response port (R11, R51; notes/assumptions/22.md). -/
def emit (b : Byte) (s : State) : State := { s with RSP := some b }

/-- The host takes the byte on the response port, which empties the port (R51); where there is none, nothing is
handed over (R206, notes/assumptions/5.md). -/
def takeResponse (s : State) : State :=
  match s.RSP with
  | none => s
  | some b => { s with RSP := none, received := s.received ++ [b] }

/-! ### The key memory -/

/-- KPUSH's effect: "if KLEN < 256: KEYMEM[KLEN] <- imm8; KLEN <- KLEN + 1", else "the byte is dropped" (R101). -/
def appendKey (b : Byte) (s : State) : State :=
  if h : s.KLEN.val < 256 then
    { s with KEYMEM := s.KEYMEM.set s.KLEN.val b h, KLEN := ⟨s.KLEN.val + 1, by omega⟩ }
  else s

/-! ### Faults (spec/60_exceptions.md) -/

/-- Fault entry: "`raise Fault(code)` does exactly: `ERRCODE <- code; PHASE <- FAULT`, and ends the command" (R205).
Nothing is saved and nothing else is written. -/
def raiseFault (code : ErrCode) (s : State) : State := { s with ERRCODE := code, PHASE := .fault }

/-- A word that is no command: it raises its fault in phases IDLE and RUN and is refused in phase FAULT, where "no
state change, no response, no new fault" (R75, R76, R207). -/
def raiseUnlessFault (code : ErrCode) (s : State) : State :=
  match s.PHASE with
  | .fault => s
  | .idle => raiseFault code s
  | .run => raiseFault code s

/-- The code of a rejected word: 1 ILLEGAL_OPCODE or 2 RESERVED_OPERAND (R201). -/
def rejectCode : Reject → ErrCode
  | .reservedOpcode => .illegalOpcode
  | .reservedOperand => .reservedOperand

/-- The soft reset, which is also the return from a fault (R208): "`PHASE <- IDLE ; ERRCODE <- NONE ; KLEN <- 0`"; "KEYMEM, S,
X, Y keep their bits" (R146). -/
def softReset (s : State) : State := { s with PHASE := .idle, ERRCODE := .none, KLEN := 0 }

/-- The hardware reset (R230, R231), the other way out of a fault (R208): the reset state, with fresh unspecified
values; "a response byte presented and not yet taken is withdrawn". -/
def hardwareReset (s : State) : State := State.afterReset s.resets s.host s.received

/-! ### The host's next move -/

/-- Take moves off the host's list: the moves left are `left`. -/
def State.withHost (s : State) (left : List HostEvent) : State := { s with host := left }

/-- The move that happens next, and the moves left after it. While a response byte is pending (`busy`) the block "accepts
no further command until the host has taken it" (R236): the words stay presented, in order, and the first move that is
not a word comes next; where there is none, nothing can happen (notes/assumptions/4.md). -/
def nextEvent (busy : Bool) : List HostEvent → Option (HostEvent × List HostEvent)
  | [] => none
  | .take :: rest => some (.take, rest)
  | .reset :: rest => some (.reset, rest)
  | .command w :: rest =>
    match busy with
    | false => some (.command w, rest)
    | true =>
      match nextEvent true rest with
      | none => none
      | some (e, left) => some (e, .command w :: left)

end Sys2Proof.Machine
end

