-- ==== Sys2Proof/Machine/Flags.lean ====
section
/-! DEFINITION. Machine/Flags.lean: the flag-like state and its read-out (spec/10_state.md rules R26 to R29, R32): the codes of
PHASE and ERRCODE, KFULL, the STATUS byte, KLEN[7:0]. The block has no other flag (R32). -/

namespace Sys2Proof.Machine

/-- PHASE as its 2 bits: 0 IDLE, 1 RUN, 2 FAULT (R20, R27). -/
def phaseBits : Phase → BitVec 2
  | .idle => 0
  | .run => 1
  | .fault => 2

/-- ERRCODE as its 3 bits: 0 NONE to 4 BAD_KEYLEN (R28, R201). -/
def errBits : ErrCode → BitVec 3
  | .none => 0
  | .illegalOpcode => 1
  | .reservedOperand => 2
  | .phaseViolation => 3
  | .badKeylen => 4

/-- KFULL: "1 when KLEN = 256, else 0" (R29). -/
def kfullBit (klen : Fin 257) : BitVec 1 := if klen.val = 256 then 1 else 0

/-- "STATUS = `{0b00, KFULL, ERRCODE[2:0], PHASE[1:0]}`" (R29). -/
def statusByte (s : State) : Byte := 0#2 ++ kfullBit s.KLEN ++ errBits s.ERRCODE ++ phaseBits s.PHASE

/-- KLEN[7:0] (R26). -/
def klenLow (s : State) : Byte := BitVec.ofNat 8 s.KLEN.val

end Sys2Proof.Machine
end

