-- ==== Sys2Proof/Machine/Operands.lean ====
section
/-! DEFINITION. Machine/Operands.lean: the one operand form that is not the command's own byte: the key byte of a round, read
through the guarded key read (spec/20_memory.md rule R53, spec/40_ksa.md rule R90). -/

namespace Sys2Proof.Machine

/-- `keyread(p)`: KEYMEM[p] if p < KLEN, and 0 if p >= KLEN. "The zero comes from the comparison with KLEN, not from the
contents of KEYMEM" (R53). -/
def keyread (keymem : Table) (klen : Fin 257) (p : Nat) : Byte :=
  if h : p < klen.val then keymem[p]'(by omega) else 0

/-- "In hardware `keyx(i) = keyread((i mod KLEN) + 1)`" (R90). START asks for it with KLEN in 1..256 only (R102). -/
def keyx (keymem : Table) (klen : Fin 257) (i : Nat) : Byte := keyread keymem klen (i % klen.val + 1)

/-- The value-level key expansion, for a key given as its bytes: K[(i mod L) + 1] where that position is below L, and 0 where
it is L (R90). -/
def keyxOfKey (K : List Byte) (i : Nat) : Byte :=
  if h : i % K.length + 1 < K.length then K[i % K.length + 1] else 0

end Sys2Proof.Machine
end

