-- ==== Sys2Proof/Machine/KeyScheduler.lean ====
section
/-! DEFINITION. Machine/KeyScheduler.lean: the unit stream-cipher_ksa (spec/40_ksa.md): the key schedule and the commands KCLR,
KPUSH and START. -/

namespace Sys2Proof.Machine

/-- KSA_ACC_INIT: the accumulator J before the first round (R92, decision D4; notes/assumptions/7.md). -/
def ksaAccInit : Byte := 0

/-- One round, R93: `J <- (J + S[I] + keyx(I)) mod 256`, then `swap(S, I, J)`. The pair is (S, J). -/
def ksaRound (t : Table × Byte) (i : Byte) (key : Byte) : Table × Byte :=
  let j := t.2 + tableGet t.1 i + key
  (tableSwap t.1 i j, j)

/-- S and J after the rounds I = 0 .. n-1, in ascending order (R91 to R94), for the expanded key `kx`. -/
def ksaRounds (kx : Nat → Byte) : Nat → Table × Byte
  | 0 => (identityTable, ksaAccInit)
  | n + 1 => ksaRound (ksaRounds kx n) (BitVec.ofNat 8 n) (kx n)

/-- The table after "exactly 255" rounds: "There is no round with I = 255" (R94, R96). Irreducible, so that no comparison of two
states runs the rounds. -/
@[irreducible] def schedule (kx : Nat → Byte) : Table := (ksaRounds kx 255).1

/-- `ksa(K)` for a key given as its bytes (R96). The spec defines it for L ≥ 1; for the empty key it says nothing, and no
definition of the model asks for it (notes/assumptions/13.md). -/
def ksa (K : List Byte) : Table := schedule (keyxOfKey K)

/-- What START computes: `ksa(K)` with K[p] = KEYMEM[p], L = KLEN (R102). -/
def ksaHw (keymem : Table) (klen : Fin 257) : Table := schedule (keyx keymem klen)

/-- The cipher state at the start of an invocation: the table, and both indices at -1, held as 0xFF (R110; notes/assumptions/8.md). -/
def startCipher (t : Table) : CipherState := { S := t, X := 0xFF#8, Y := 0xFF#8 }

/-- KCLR (R100). -/
def execKclr (s : State) : Host.Outcome State Fault Refusal :=
  match s.PHASE with
  | .fault => .next s
  | .run => .next (raiseFault .phaseViolation s)
  | .idle => .next { s with KLEN := 0 }

/-- KPUSH imm8 (R101). -/
def execKpush (imm8 : Byte) (s : State) : Host.Outcome State Fault Refusal :=
  match s.PHASE with
  | .fault => .next s
  | .run => .next (raiseFault .phaseViolation s)
  | .idle => .next (appendKey imm8 s)

/-- START (R102): all of S, X, Y and PHASE are written, KEYMEM and KLEN only read. -/
def execStart (s : State) : Host.Outcome State Fault Refusal :=
  match s.PHASE with
  | .fault => .next s
  | .run => .next (raiseFault .phaseViolation s)
  | .idle =>
    if s.KLEN.val = 0 then .next (raiseFault .badKeylen s)
    else .next { s.withCipher (startCipher (ksaHw s.KEYMEM s.KLEN)) with PHASE := .run }

end Sys2Proof.Machine
end

