-- ==== Sys2Proof/Machine/Keystream.lean ====
section
/-! DEFINITION. Machine/Keystream.lean: the unit stream-cipher_prga_keystream_xor (spec/41_prga.md): the step and the command
DATA. -/

namespace Sys2Proof.Machine

/-- Steps 1 to 3 (R111 to R113): `X <- (X + 1) mod 256`, `Y <- (Y + S[X]) mod 256` with the new X, `swap(S, X, Y)`. -/
def prgaAdvance (c : CipherState) : CipherState :=
  let x := c.X + 1
  let y := c.Y + tableGet c.S x
  { S := tableSwap c.S x y, X := x, Y := y }

/-- Step 4 (R114), on the state steps 1 to 3 leave: `ks <- S[(S[X] + S[Y]) mod 256]`. It is stored nowhere (R119). -/
def keystreamByte (c : CipherState) : Byte :=
  tableGet c.S (tableGet c.S c.X + tableGet c.S c.Y)

/-- The whole step `prga_step(S, X, Y, in)` (R116): the new state and `out <- in xor ks` (R115). -/
def prgaStep (c : CipherState) (input : Byte) : CipherState × Byte :=
  (prgaAdvance c, input ^^^ keystreamByte (prgaAdvance c))

/-- DATA imm8 (R120). -/
def execData (imm8 : Byte) (s : State) : Host.Outcome State Fault Refusal :=
  match s.PHASE with
  | .fault => .next s
  | .idle => .next (raiseFault .phaseViolation s)
  | .run => .next (emit (prgaStep s.cipher imm8).2 (s.withCipher (prgaStep s.cipher imm8).1))

end Sys2Proof.Machine
end

