-- ==== Sys2Proof/Machine/TransformEngine.lean ====
section
/-! DEFINITION. Machine/TransformEngine.lean: the unit symmetric_transform_engine (spec/42_transform_engine.md): the function of one
invocation and the commands FINISH, NOP, RDST and RST. -/

namespace Sys2Proof.Machine

/-- The keystream engine run over a message, byte by byte, each byte on the state the one before it left (R117, R130). -/
def applyKeystream (c : CipherState) : List Byte → List Byte
  | [] => []
  | b :: rest => (prgaStep c b).2 :: applyKeystream (prgaStep c b).1 rest

/-- `transform(K, B)` (R130): defined for every key with L ≥ 1 and every message; "For L = 0 it is not defined" (R136). -/
def transform (K B : List Byte) : Option (List Byte) :=
  match K with
  | [] => none
  | _ :: _ => some (applyKeystream (startCipher (ksa K)) B)

/-- FINISH (R142); "FINISH in IDLE is accepted and changes nothing". -/
def execFinish (s : State) : Host.Outcome State Fault Refusal :=
  match s.PHASE with
  | .fault => .next s
  | .run => .next { s with PHASE := .idle }
  | .idle => .next { s with PHASE := .idle }

/-- NOP (R143): "no state change", in every phase. -/
def execNop (s : State) : Host.Outcome State Fault Refusal := .next s

/-- RDST sel (R145): the STATUS byte or KLEN[7:0], in every phase; another selector raises RESERVED_OPERAND, and is refused in
phase FAULT. -/
def execRdst (sel : Byte) (s : State) : Host.Outcome State Fault Refusal :=
  if sel = 0#8 then .next (emit (statusByte s) s)
  else if sel = 1#8 then .next (emit (klenLow s) s)
  else .next (raiseUnlessFault .reservedOperand s)

/-- RST (R146), in every phase. -/
def execRst (s : State) : Host.Outcome State Fault Refusal := .next (softReset s)

end Sys2Proof.Machine
end

