-- ==== Sys2Proof/Machine/Dispatch.lean ====
section
/-! DEFINITION. Machine/Dispatch.lean: one arm per command, each one call of the command's meaning. -/

namespace Sys2Proof.Machine

def exec (i : Instr) (s : State) : Host.Outcome State Fault Refusal :=
  match i with
  | .nop => Sys2Proof.Machine.execNop s
  | .kclr => Sys2Proof.Machine.execKclr s
  | .kpush imm8 => Sys2Proof.Machine.execKpush imm8 s
  | .start => Sys2Proof.Machine.execStart s
  | .data imm8 => Sys2Proof.Machine.execData imm8 s
  | .finish => Sys2Proof.Machine.execFinish s
  | .rdst sel => Sys2Proof.Machine.execRdst sel s
  | .rst => Sys2Proof.Machine.execRst s

end Sys2Proof.Machine
end

