-- ==== Sys2Proof/Machine/Port.lean ====
section
/-! DEFINITION. Machine/Port.lean: the transactions at the two ports (spec/20_memory.md rule R51): what a word does once the command
port has accepted it, and what each move of the host does. -/

namespace Sys2Proof.Machine

/-- A word accepted on the command port: a command runs, a word that is none raises its fault or is refused (R74, R139). -/
def acceptWord (w : Word) (s : State) : Host.Outcome State Fault Refusal :=
  match decode w with
  | .ok i => exec i s
  | .error r => .next (raiseUnlessFault (rejectCode r) s)

/-- One move of the world outside the block. -/
def runEvent (e : HostEvent) (s : State) : Host.Outcome State Fault Refusal :=
  match e with
  | .command w => acceptWord w s
  | .take => .next (takeResponse s)
  | .reset => .next (hardwareReset s)

/-- One step: the next move that can happen is taken off the host's list and happens. Where none can, the block waits with all
state held (R147, R214, R236). -/
def stepPort (s : State) : Host.Outcome State Fault Refusal :=
  match nextEvent s.RSP.isSome s.host with
  | none => .next s
  | some (e, rest) => runEvent e (s.withHost rest)

/-- `s` with the word `w` as the next the host presents, and the response port empty, so that the block accepts it at
once (R51). -/
def presentWord (w : Word) (s : State) : State := { s with RSP := none, host := .command w :: s.host }

end Sys2Proof.Machine
end

