-- ==== Sys2Proof/Machine/Step.lean ====
section
/-! DEFINITION. Machine/Step.lean: one step of the machine. "One step of the machine is one accepted command word" (spec/00_scope.md
rule R13); the host taking a response byte and a hardware reset are steps of their own. -/

namespace Sys2Proof.Machine

/-- One step (Machine/Port.lean says what it does). -/
def step (s : State) : Host.Outcome State Fault Refusal := stepPort s

/-- `s` with the table word `w` of `nbits` bits presented on the command port, so that the very next step runs it. The block
has no program counter and no stored program (R30): a program is the words a host hands over (notes/assumptions/12.md). -/
def State.withFetchWord (s : State) (nbits w : Nat) : State := presentWord (tableWord nbits w) s

end Sys2Proof.Machine
end

