-- ==== Sys2Proof/Machine/HostSoftware.lean ====
section
/-! DEFINITION. Machine/HostSoftware.lean: the host at the other end of the ports (spec/30_encoding.md rule R80,
spec/43_collaborators.md): the driver's command sequences, key validation, framing and key generation. It is software
around the block (R6, R170): nothing of it is part of exec or step. -/

namespace Sys2Proof.Machine

/-! ### The driver (R80, R183): a command's response byte is taken before the next command (R144) -/

/-- The pseudo-instruction KEY: KCLR, then one KPUSH per key byte, in order (R80). -/
def keyMoves (K : List Byte) : List HostEvent :=
  .command (encode .kclr) :: K.map fun b => .command (encode (.kpush b))

/-- The DATA commands of a message, in order, the response byte of each taken. -/
def dataMoves (B : List Byte) : List HostEvent :=
  B.flatMap fun b => [.command (encode (.data b)), .take]

/-- The pseudo-instruction CRYPT: START, one DATA per byte, FINISH (R80). -/
def cryptMoves (B : List Byte) : List HostEvent :=
  .command (encode .start) :: (dataMoves B ++ [.command (encode .finish)])

/-- The pseudo-instruction STATUS: RDST 0 (R80). -/
def statusMoves : List HostEvent := [.command (encode (.rdst 0#8)), .take]

/-- The pseudo-instruction KEYLEN: RDST 1 (R80). -/
def keylenMoves : List HostEvent := [.command (encode (.rdst 1#8)), .take]

/-! ### Key validation and construction (R171 to R175) -/

/-- The punctuation set `_=&".+-*?'` as bytes (R173). -/
def isPunctuation (b : Byte) : Bool :=
  b ∈ [0x5F#8, 0x3D#8, 0x26#8, 0x22#8, 0x2E#8, 0x2B#8, 0x2D#8, 0x2A#8, 0x3F#8, 0x27#8]

/-- The 62 ASCII bytes `0`-`9`, `A`-`Z`, `a`-`z` (R174). -/
def isAlphanumeric (b : Byte) : Bool :=
  (0x30 ≤ b.toNat && b.toNat ≤ 0x39) || (0x41 ≤ b.toNat && b.toNat ≤ 0x5A) || (0x61 ≤ b.toNat && b.toNat ≤ 0x7A)

/-- "L ≥ 6; at least one byte of K is alphanumeric; at least one byte of K is in the punctuation set" (R172). -/
def keyValid (K : List Byte) : Bool :=
  decide (6 ≤ K.length) && K.any isAlphanumeric && K.any isPunctuation

/-- "a closed tagged variant {Base64, Hex}" (R175). -/
inductive OutputMode where
  | base64
  | hex
deriving DecidableEq, Repr

/-- A cipher instance holds its key and its mode for its whole life (R171). -/
structure Cipher where
  key : List Byte
  mode : OutputMode
deriving DecidableEq, Repr

/-- "KeyValidationError: raised at construction only"; it carries a suggested key (R172, R211). -/
inductive KeyValidationError where
  | invalidKey (suggestion : List Byte)
deriving DecidableEq, Repr

/-- "DecodeFormatError: raised when decode input text is not valid Base64/hex for the configured mode" (R211). -/
inductive DecodeFormatError where
  | malformedText
deriving DecidableEq, Repr

/-- `generateKey(length)`, by default of length 128: each byte a free draw from 33..126 (R182, U4); `draw` counts the draws made before. -/
def generateKey (length : Nat := 128) (draw : Nat) : List Byte :=
  (List.range length).map fun i => BitVec.ofNat 8 (33 + (Config.keyDraw (draw + i)).val)

/-- `new(key, mode)`; "The mode defaults to Base64" (R171, R172); the suggested key has the default length 128 (R182). -/
def newCipher (K : List Byte) (mode : OutputMode := .base64) (draw : Nat) : Except KeyValidationError Cipher :=
  if keyValid K then .ok { key := K, mode := mode } else .error (.invalidKey (generateKey 128 draw))

/-! ### Hexadecimal text (R178, R180) -/

/-- A hex digit, `0`-`9` and `a`-`f` (R178). -/
def hexDigit (n : BitVec 4) : Char :=
  if n.toNat < 10 then Char.ofNat (48 + n.toNat) else Char.ofNat (87 + n.toNat)

/-- The value of a hex digit; upper case only as HEX_DECODE_UPPERCASE says (R180). -/
def hexValue (c : Char) : Option (BitVec 4) :=
  if 48 ≤ c.toNat ∧ c.toNat ≤ 57 then some (BitVec.ofNat 4 (c.toNat - 48))
  else if 97 ≤ c.toNat ∧ c.toNat ≤ 102 then some (BitVec.ofNat 4 (c.toNat - 87))
  else if 65 ≤ c.toNat ∧ c.toNat ≤ 70 ∧ Config.hexDecodeUppercase = true then some (BitVec.ofNat 4 (c.toNat - 55))
  else none

/-- "two characters per byte, high nibble first" (R178). -/
def hexEncode : List Byte → List Char
  | [] => []
  | b :: rest => hexDigit (b.extractLsb' 4 4) :: hexDigit (b.extractLsb' 0 4) :: hexEncode rest

/-- "invalid alphabet, odd-length hex" is a decode error (R181). -/
def hexDecode : List Char → Except DecodeFormatError (List Byte)
  | [] => .ok []
  | [_] => .error .malformedText
  | c :: d :: rest =>
    match hexValue c, hexValue d, hexDecode rest with
    | some hi, some lo, .ok bytes => .ok ((hi ++ lo : Byte) :: bytes)
    | _, _, _ => .error .malformedText

/-! ### Base64 text (R177, R179) -/

/-- The alphabet `A`-`Z`, `a`-`z`, `0`-`9`, `+`, `/` for the values 0..63 in that order (R177). -/
def base64Char (v : BitVec 6) : Char :=
  if v.toNat < 26 then Char.ofNat (65 + v.toNat)
  else if v.toNat < 52 then Char.ofNat (71 + v.toNat)
  else if v.toNat < 62 then Char.ofNat (v.toNat - 4)
  else if v.toNat = 62 then '+'
  else '/'

/-- The value of a Base64 character. -/
def base64Value (c : Char) : Option (BitVec 6) :=
  if 65 ≤ c.toNat ∧ c.toNat ≤ 90 then some (BitVec.ofNat 6 (c.toNat - 65))
  else if 97 ≤ c.toNat ∧ c.toNat ≤ 122 then some (BitVec.ofNat 6 (c.toNat - 71))
  else if 48 ≤ c.toNat ∧ c.toNat ≤ 57 then some (BitVec.ofNat 6 (c.toNat + 4))
  else if c = '+' then some 62
  else if c = '/' then some 63
  else none

/-- "three bytes to four characters, most significant bits first, with `=` padding the last group to four
characters" (R177). -/
def base64Encode : List Byte → List Char
  | [] => []
  | [a] => [base64Char (a.extractLsb' 2 6), base64Char (a.extractLsb' 0 2 ++ 0#4), '=', '=']
  | [a, b] =>
    [base64Char (a.extractLsb' 2 6), base64Char (a.extractLsb' 0 2 ++ b.extractLsb' 4 4),
      base64Char (b.extractLsb' 0 4 ++ 0#2), '=']
  | a :: b :: c :: rest =>
    base64Char (a.extractLsb' 2 6) :: base64Char (a.extractLsb' 0 2 ++ b.extractLsb' 4 4) ::
      base64Char (b.extractLsb' 0 4 ++ c.extractLsb' 6 2) :: base64Char (c.extractLsb' 0 6) :: base64Encode rest

/-- A last group of two characters: one byte, four unused bits. -/
def base64Tail2 (c d : Char) : Except DecodeFormatError (List Byte) :=
  match base64Value c, base64Value d with
  | some u, some v =>
    if v.extractLsb' 0 4 = 0#4 ∨ Config.base64TailBits = true then .ok [(u ++ v.extractLsb' 4 2 : Byte)]
    else .error .malformedText
  | _, _ => .error .malformedText

/-- A last group of three characters: two bytes, two unused bits. -/
def base64Tail3 (c d e : Char) : Except DecodeFormatError (List Byte) :=
  match base64Value c, base64Value d, base64Value e with
  | some u, some v, some w =>
    if w.extractLsb' 0 2 = 0#2 ∨ Config.base64TailBits = true then
      .ok [(u ++ v.extractLsb' 4 2 : Byte), (v.extractLsb' 0 4 ++ w.extractLsb' 2 4 : Byte)]
    else .error .malformedText
  | _, _, _ => .error .malformedText

/-- A full group of four characters: three bytes. -/
def base64Group (c d e f : Char) : Option (List Byte) :=
  match base64Value c, base64Value d, base64Value e, base64Value f with
  | some u, some v, some w, some x =>
    some [(u ++ v.extractLsb' 4 2 : Byte), (v.extractLsb' 0 4 ++ w.extractLsb' 2 4 : Byte),
      (w.extractLsb' 0 2 ++ x : Byte)]
  | _, _, _, _ => none

/-- Standard Base64 text to bytes, padded or not ("decoders must accept unpadded input", R179); a wrong alphabet, padding or
length is malformed (R181, R211). -/
def base64Decode : List Char → Except DecodeFormatError (List Byte)
  | [] => .ok []
  | [_] => .error .malformedText
  | [c, d] => base64Tail2 c d
  | [c, d, e] => base64Tail3 c d e
  | c :: d :: e :: f :: rest =>
    if rest = [] ∧ e = '=' ∧ f = '=' then base64Tail2 c d
    else if rest = [] ∧ f = '=' then base64Tail3 c d e
    else
      match base64Group c d e f, base64Decode rest with
      | some bytes, .ok more => .ok (bytes ++ more)
      | _, _ => .error .malformedText

/-- "replace `+`→`-`, `/`→`_`, and strip trailing `=` padding" (R177); no other `=` stands in Base64 text. -/
def urlSafe (text : List Char) : List Char :=
  (text.filter (· ≠ '=')).map fun c => if c = '+' then '-' else if c = '/' then '_' else c

/-- "reverse the character substitution (`-`→`+`, `_`→`/`) before decoding" (R179). -/
def urlUnsafe (text : List Char) : List Char :=
  text.map fun c => if c = '-' then '+' else if c = '_' then '/' else c

/-- White space, dropped where the decoder skips it (U6). -/
def dropWhitespace (text : List Char) : List Char :=
  text.filter fun c => !(decide (c ∈ [' ', '\t', '\n', '\r']) && Config.base64Whitespace)

/-- The two characters that are not in the alphabet of this translate flag but in the other one's. -/
def foreignChars (translate : Bool) : List Char :=
  match translate with
  | true => ['+', '/']
  | false => ['-', '_']

/-- Whether the decoder takes a text at all: the other alphabet's characters, and padding beside the translate flag, only
as the open parameters say (U6, N10). -/
def base64Accepts (translate : Bool) (text : List Char) : Bool :=
  (text.all (fun c => decide (c ∉ foreignChars translate)) || Config.base64MixedAlphabet translate) &&
    (!translate || text.all (fun c => decide (c ≠ '=')) || Config.base64PaddedTranslated)

/-- Base64 text to bytes under a translate flag (R179). -/
def base64Unframe (translate : Bool) (text : List Char) : Except DecodeFormatError (List Byte) :=
  if base64Accepts translate (dropWhitespace text) = true then base64Decode (urlUnsafe (dropWhitespace text))
  else .error .malformedText

/-! ### encode and decode (R176 to R181) -/

/-- Framing; the translate flag has no effect in Hex mode (R178). -/
def frame (mode : OutputMode) (translate : Bool) (bytes : List Byte) : List Char :=
  match mode, translate with
  | .hex, _ => hexEncode bytes
  | .base64, false => base64Encode bytes
  | .base64, true => urlSafe (base64Encode bytes)

/-- Unframing, before any byte reaches the block (R181). -/
def unframe (mode : OutputMode) (translate : Bool) (text : List Char) : Except DecodeFormatError (List Byte) :=
  match mode, translate with
  | .hex, _ => hexDecode text
  | .base64, _ => base64Unframe translate text

/-- `Cipher.encode(input, translate)`: one `CRYPT` of the input, then framing (R176); none where the transform is not defined. -/
def Cipher.encode (c : Cipher) (input : List Byte) (translate : Bool := false) : Option (List Char) :=
  match transform c.key input with
  | none => none
  | some bytes => some (frame c.mode translate bytes)

/-- `Cipher.decode(text, translate)`: unframing, then one `CRYPT` of the bytes (R179, R180); none where the transform is not
defined. -/
def Cipher.decode (c : Cipher) (text : List Char) (translate : Bool := false) : Option (Except DecodeFormatError (List Byte)) :=
  match unframe c.mode translate text with
  | .error e => some (.error e)
  | .ok bytes =>
    match transform c.key bytes with
    | none => none
    | some plain => some (.ok plain)

/-! ### The driver bound to one block instance (R183) -/

/-- At construction, after validation: `KEY K`. "If validation fails nothing is sent to the block" (R183). -/
def constructMoves (K : List Byte) (mode : OutputMode := .base64) (draw : Nat) : List HostEvent :=
  match newCipher K mode draw with
  | .ok c => keyMoves c.key
  | .error _ => []

/-- For every `encode`, one `CRYPT` of the input (R183). -/
def encodeMoves (input : List Byte) : List HostEvent := cryptMoves input

/-- For every `decode`, one `CRYPT` of the bytes; "a malformed text sends no command to the block" (R181, R183). -/
def decodeMoves (c : Cipher) (text : List Char) (translate : Bool := false) : List HostEvent :=
  match unframe c.mode translate text with
  | .ok bytes => cryptMoves bytes
  | .error _ => []

end Sys2Proof.Machine
end

