-- ==== Sys2Proof/Safety.lean ====
section
/-! DEFINITION. Safety.lean: the invariant of the block and what its host can tell apart, in the words the claims use. -/

namespace Sys2Proof.Machine

/-- "a bijection of the integers 0–255 onto themselves" (R14, R34). -/
def IsPermutation (t : Table) : Prop := Function.Bijective (tableGet t)

/-- What every state of the block meets: "ERRCODE ≠ 0 exactly when PHASE = FAULT" (R28); "RUN implies KLEN ≥ 1" (R204); "Whenever PHASE
= RUN, S is a permutation of 0..255" (R34); BAD_KEYLEN goes with KLEN = 0 (V15: "KLEN = 0 of necessity"). -/
structure Inv (s : State) : Prop where
  errcode_iff_fault : s.ERRCODE ≠ .none ↔ s.PHASE = .fault
  run_has_key : s.PHASE = .run → 1 ≤ s.KLEN.val
  run_permutation : s.PHASE = .run → IsPermutation s.S
  badKeylen_no_key : s.ERRCODE = .badKeylen → s.KLEN.val = 0

/-- Two states that no host can tell apart: they agree on the two ports, on PHASE, ERRCODE and KLEN, on the key bytes below KLEN,
and, where an invocation is open, on S, X and Y. The rest is dead (R14, R24, R25, R35, R36). -/
structure SameToHost (s t : State) : Prop where
  phase : s.PHASE = t.PHASE
  errcode : s.ERRCODE = t.ERRCODE
  klen : s.KLEN = t.KLEN
  key : ∀ p : Nat, p < 256 → p < s.KLEN.val → s.KEYMEM[p]? = t.KEYMEM[p]?
  cipher : s.PHASE = .run → s.cipher = t.cipher
  rsp : s.RSP = t.RSP
  host : s.host = t.host
  received : s.received = t.received

/-- A run that raises no fault: phase FAULT is never entered (R209). -/
def NoFault (s : State) : Prop := s.PHASE ≠ .fault

end Sys2Proof.Machine
end

