-- ==== Sys2Proof/Certificates/Slice0/Obligations.lean ====
section
/-! DEFINITION. Certificates/Slice0/Obligations.lean: the statements for the provers. Each docstring names the rule of the
spec it formalises; OBLIGATIONS.json lists them. -/

namespace Sys2Proof.Spec

open Sys2Proof.Machine

/-! The spec's own pseudocode on natural numbers, written beside the model and not from it: the statements compare the
model with it. -/

/-- `swap(T, p, q)` on a table of natural numbers (R10). -/
def swapNat (T : Nat → Nat) (p q : Nat) : Nat → Nat := fun k => if k = p then T q else if k = q then T p else T k

/-- `keyx(i)` for the key bytes K of length L (R90). -/
def keyxNat (K : Nat → Nat) (L i : Nat) : Nat := if i % L + 1 < L then K (i % L + 1) else 0

/-- One pass of the second loop of R96, on (S, J). -/
def roundNat (K : Nat → Nat) (L : Nat) (st : (Nat → Nat) × Nat) (I : Nat) : (Nat → Nat) × Nat :=
  (swapNat st.1 I ((st.2 + st.1 I + keyxNat K L I) % 256), (st.2 + st.1 I + keyxNat K L I) % 256)

/-- R96: `S[I] <- I`, `J <- 0`, then the passes I = 0 .. 254 in ascending order. -/
def ksaNat (K : Nat → Nat) (L : Nat) : Nat → Nat :=
  ((List.range 255).foldl (roundNat K L) (fun k => k, 0)).1

/-- The low bytes that R74 (2) allows for the opcodes 0x00 to 0x07. -/
def legalLow (op lo : Nat) : Prop :=
  (op = 0 ∧ lo = 0) ∨ (op = 1 ∧ lo = 0) ∨ op = 2 ∨ (op = 3 ∧ lo = 0) ∨ op = 4 ∨ (op = 5 ∧ lo = 0) ∨
    (op = 6 ∧ lo ≤ 1) ∨ (op = 7 ∧ lo = 0)

/-- The commands that R141 does not allow in a phase: KCLR, KPUSH and START in RUN, DATA in IDLE. -/
def wrongPhase (op : Nat) (phase : Phase) : Prop :=
  ((op = 1 ∨ op = 2 ∨ op = 3) ∧ phase = .run) ∨ (op = 4 ∧ phase = .idle)

/-- `c` is the fault that the check order R139 (2) to (5) gives the word `w` in a state that is not in phase FAULT; NONE where
no check fails. -/
def faultOf (w : Word) (s : State) (c : ErrCode) : Prop :=
  (8 ≤ w.toNat / 256 ∧ c = .illegalOpcode) ∨
  (w.toNat / 256 < 8 ∧ ¬ legalLow (w.toNat / 256) (w.toNat % 256) ∧ c = .reservedOperand) ∨
  (legalLow (w.toNat / 256) (w.toNat % 256) ∧ wrongPhase (w.toNat / 256) s.PHASE ∧ c = .phaseViolation) ∨
  (w = 0x0300#16 ∧ s.PHASE = .idle ∧ s.KLEN.val = 0 ∧ c = .badKeylen) ∨
  (legalLow (w.toNat / 256) (w.toNat % 256) ∧ ¬ wrongPhase (w.toNat / 256) s.PHASE ∧
    ¬ (w = 0x0300#16 ∧ s.KLEN.val = 0) ∧ c = .none)

/-- PHASE as the number of R20. -/
def phaseNumber : Phase → Nat
  | .idle => 0
  | .run => 1
  | .fault => 2

/-- ERRCODE as the number of R201. -/
def errNumber : ErrCode → Nat
  | .none => 0
  | .illegalOpcode => 1
  | .reservedOperand => 2
  | .phaseViolation => 3
  | .badKeylen => 4

/-- What a host does in an open invocation: it sends one message byte (R120), or takes one of the liberties of R144, NOP and
RDST. -/
inductive Use where
  | data (b : Byte)
  | nop
  | status
  | keylen
deriving DecidableEq, Repr

/-- The moves of a use, its response byte taken where it has one (R144). -/
def useMoves : Use → List HostEvent
  | .data b => [.command (wordOf 0x04#8 b), .take]
  | .nop => [.command 0x0000#16]
  | .status => [.command 0x0600#16, .take]
  | .keylen => [.command 0x0601#16, .take]

/-- Whether a use is a DATA command. -/
def Use.isData : Use → Bool
  | .data _ => true
  | .nop => false
  | .status => false
  | .keylen => false

/-- The digits of hex text, each at its value (R178). -/
def hexDigits : List Char := ['0', '1', '2', '3', '4', '5', '6', '7', '8', '9', 'a', 'b', 'c', 'd', 'e', 'f']

/-- The next move is the word `w`, and the command port is ready for it. -/
def Presents (s : State) (w : Word) (rest : List HostEvent) : Prop := s.RSP = none ∧ s.host = .command w :: rest

end Sys2Proof.Spec

open Sys2Proof Sys2Proof.Machine Sys2Proof.Spec

/-! ### Encoding -/

/-- The words 0x0000, 0x0100, 0x0261, 0x0300, 0x0468, 0x0500, 0x0600, 0x0601 and 0x0700, written bit by bit, decode to NOP, KCLR, KPUSH 0x61, START, DATA 0x68, FINISH, RDST 0, RDST 1 and RST; 0x0701 and 0x0602 are reserved operands and 0x0800 and 0x08FF reserved opcodes.
Rests on 30_encoding.md R73, 30_encoding.md R79, 95_test_vectors.md V14. -/
def Obligations.SpecWordsDecode : Prop :=
  decode 0b0000000000000000#16 = .ok .nop ∧
  decode 0b0000000100000000#16 = .ok .kclr ∧
  decode 0b0000001001100001#16 = .ok (.kpush 0x61#8) ∧
  decode 0b0000001100000000#16 = .ok .start ∧
  decode 0b0000010001101000#16 = .ok (.data 0x68#8) ∧
  decode 0b0000010100000000#16 = .ok .finish ∧
  decode 0b0000011000000000#16 = .ok (.rdst 0#8) ∧
  decode 0b0000011000000001#16 = .ok (.rdst 1#8) ∧
  decode 0b0000011100000000#16 = .ok .rst ∧
  decode 0b0000011100000001#16 = .error .reservedOperand ∧
  decode 0b0000011000000010#16 = .error .reservedOperand ∧
  decode 0b0000100000000000#16 = .error .reservedOpcode ∧
  decode 0b0000100011111111#16 = .error .reservedOpcode

/-- For every word w: where (w & mask) = match for a row of R73, the decoder answers that row's command with CMD[7:0] as its operand; where no row is selected, it rejects w. (So the rows do not overlap.)
Formalises R73. -/
def Obligations.DecoderFollowsMatchAndMask : Prop :=
  ∀ w : Word,
    (w &&& 0xFFFF#16 = 0x0000#16 → decode w = .ok .nop) ∧
    (w &&& 0xFFFF#16 = 0x0100#16 → decode w = .ok .kclr) ∧
    (w &&& 0xFF00#16 = 0x0200#16 → decode w = .ok (.kpush (w.setWidth 8))) ∧
    (w &&& 0xFFFF#16 = 0x0300#16 → decode w = .ok .start) ∧
    (w &&& 0xFF00#16 = 0x0400#16 → decode w = .ok (.data (w.setWidth 8))) ∧
    (w &&& 0xFFFF#16 = 0x0500#16 → decode w = .ok .finish) ∧
    (w &&& 0xFFFE#16 = 0x0600#16 → decode w = .ok (.rdst (w.setWidth 8))) ∧
    (w &&& 0xFFFF#16 = 0x0700#16 → decode w = .ok .rst) ∧
    (w &&& 0xFFFF#16 ≠ 0x0000#16 → w &&& 0xFFFF#16 ≠ 0x0100#16 → w &&& 0xFF00#16 ≠ 0x0200#16 →
      w &&& 0xFFFF#16 ≠ 0x0300#16 → w &&& 0xFF00#16 ≠ 0x0400#16 → w &&& 0xFFFF#16 ≠ 0x0500#16 →
      w &&& 0xFFFE#16 ≠ 0x0600#16 → w &&& 0xFFFF#16 ≠ 0x0700#16 → ∃ r, decode w = .error r)

/-- For every well-formed command i, with every operand its encoding admits, decode (encode i) is i.
Rests on 30_encoding.md R70, 30_encoding.md R73. -/
def Obligations.DecodeOfEncode : Prop :=
  ∀ i : Instr, i.wellFormed = true → decode (encode i) = .ok i

/-- If decode w is the command i, then i is well-formed and encode i is w: every word has at most one meaning and every command one word.
Rests on 30_encoding.md R73, 30_encoding.md R74. -/
def Obligations.EncodeOfDecode : Prop :=
  ∀ (w : Word) (i : Instr), decode w = .ok i → i.wellFormed = true ∧ encode i = w

/-- A word is a reserved opcode when its opcode is in 0x08..0xFF, else a reserved operand when its low byte is not allowed for the opcode, else a command whose operand, where it has one, is CMD[7:0]; 63488, 1529 and 519 of the 65536 words fall in the three classes. The decoder reads no state.
Formalises R74. -/
def Obligations.DecodingIsTotalInThreeClasses : Prop :=
  (∀ w : Word,
    (8 ≤ w.toNat / 256 → decode w = .error .reservedOpcode) ∧
    (w.toNat / 256 < 8 → ¬ legalLow (w.toNat / 256) (w.toNat % 256) → decode w = .error .reservedOperand) ∧
    (legalLow (w.toNat / 256) (w.toNat % 256) →
      ∃ i, decode w = .ok i ∧ (encode i).toNat / 256 = w.toNat / 256 ∧
        (∀ b, i = .kpush b ∨ i = .data b ∨ i = .rdst b → b.toNat = w.toNat % 256))) ∧
  (List.range 65536).countP (fun n => decide (decode (BitVec.ofNat 16 n) = .error .reservedOpcode)) = 63488 ∧
  (List.range 65536).countP (fun n => decide (decode (BitVec.ofNat 16 n) = .error .reservedOperand)) = 1529 ∧
  (List.range 65536).countP (fun n => (decode (BitVec.ofNat 16 n)).isOk) = 519

/-! ### The step and the two ports -/

/-- When the response port is empty and the next move of the host is the word w, and w decodes to i, the step is exec i on the state with that move taken off the host's list; the command i is then well-formed.
Rests on 00_scope.md R13, 20_memory.md R51, 20_memory.md R58. -/
def Obligations.StepRunsDecodedCommand : Prop :=
  ∀ (s : State) (w : Word) (rest : List HostEvent) (i : Instr),
    Presents s w rest → decode w = .ok i →
      step s = exec i { s with host := rest } ∧ i.wellFormed = true

/-- Where the table word w of nbits bits decodes to i, the step from s.withFetchWord nbits w is exec i on s with the response port empty; nothing else of s has changed. withFetchWord is the model's own (notes/assumptions/12.md).
Rests on 00_scope.md R13, 30_encoding.md R81. -/
def Obligations.FetchedTableWordRuns : Prop :=
  ∀ (s : State) (nbits w : Nat) (i : Instr),
    decodeTableWord nbits w = some i → step (s.withFetchWord nbits w) = exec i { s with RSP := none }

/-- For every word with op in 0x08..0xFF that the block accepts: in phases IDLE and RUN, ERRCODE is 1 and PHASE is FAULT afterwards and nothing else has changed; in phase FAULT nothing has changed. The word decodes to no command.
Formalises R75. -/
def Obligations.ReservedOpcodesFault : Prop :=
  ∀ (s : State) (w : Word) (rest : List HostEvent), Presents s w rest → 8 ≤ w.toNat / 256 →
    (∀ i, decode w ≠ .ok i) ∧
    (s.PHASE ≠ .fault →
      step s = .next { s with host := rest, ERRCODE := .illegalOpcode, PHASE := .fault }) ∧
    (s.PHASE = .fault → step s = .next { s with host := rest })

/-- For every word of class (2) that the block accepts: in phases IDLE and RUN, ERRCODE is 2 and PHASE is FAULT afterwards and nothing else has changed; in phase FAULT nothing has changed, 0x0701 included, while the legal forms 0x0000, 0x0600, 0x0601 and 0x0700 are recognised there.
Formalises R76. -/
def Obligations.ReservedOperandsFault : Prop :=
  (∀ (s : State) (w : Word) (rest : List HostEvent), Presents s w rest → w.toNat / 256 < 8 →
    ¬ legalLow (w.toNat / 256) (w.toNat % 256) →
      (s.PHASE ≠ .fault →
        step s = .next { s with host := rest, ERRCODE := .reservedOperand, PHASE := .fault }) ∧
      (s.PHASE = .fault → step s = .next { s with host := rest })) ∧
  (∀ (s : State) (rest : List HostEvent), Presents s 0x0701#16 rest → s.PHASE = .fault →
    step s = .next { s with host := rest }) ∧
  (∀ s : State, s.PHASE = .fault → acceptWord 0x0000#16 s = exec .nop s ∧ acceptWord 0x0600#16 s = exec (.rdst 0#8) s ∧
    acceptWord 0x0601#16 s = exec (.rdst 1#8) s ∧ acceptWord 0x0700#16 s = exec .rst s)

/-- Where the host has no move left, a step leaves the whole state as it is, and so does any number of steps. That all state is held is R214; that a wait is a step which answers the same state is the model's choice (DESIGN CHOICE, notes/assumptions/4.md).
Rests on 42_transform_engine.md R147, 60_exceptions.md R214. -/
def Obligations.WaitsWithoutMoves : Prop :=
  ∀ (s : State) (n : Nat), s.host = [] → Host.Core.run core n s = .next s

/-- Where a response byte b is pending and the host's next move is to take it, the next state has an empty response port, b at the end of the bytes received, and every other item unchanged. Where none is pending, nothing is handed over (the model's choice, notes/assumptions/5.md).
Rests on 20_memory.md R51, 42_transform_engine.md R144. -/
def Obligations.HostTakesResponse : Prop :=
  ∀ (s : State) (rest : List HostEvent), s.host = .take :: rest →
    (∀ b, s.RSP = some b → step s = .next { s with host := rest, RSP := none, received := s.received ++ [b] }) ∧
    (s.RSP = none → step s = .next { s with host := rest })

/-- Where a response byte b is pending, a step keeps every presented word and the whole state, or it is the host taking b, or it is a hardware reset. Where the host never takes it and no reset comes (only words are left), the block stays as it is for ever. R236 says that no command is accepted and what lifts the stall; that the presented words stay, in order, is the model's inference (DEDUCED), and that a stalled step answers the same state is its choice (DESIGN CHOICE), both notes/assumptions/4.md.
Rests on 70_reset_and_hazards.md R236, 20_memory.md R51, 70_reset_and_hazards.md R231. -/
def Obligations.PendingResponseBlocksCommands : Prop :=
  (∀ (s t : State) (b : Byte), s.RSP = some b → step s = .next t →
    (t.host.filter fun e => e ≠ .take ∧ e ≠ .reset) = (s.host.filter fun e => e ≠ .take ∧ e ≠ .reset) ∧
    (t = s ∨
      (.take ∈ s.host ∧ t = { s with host := t.host, RSP := none, received := s.received ++ [b] }) ∨
      (.reset ∈ s.host ∧ t = State.afterReset s.resets t.host s.received))) ∧
  (∀ (s : State) (b : Byte) (ws : List Word) (n : Nat), s.RSP = some b → s.host = ws.map .command →
    Host.Core.run core n s = .next s)

/-- For every state, a step answers a next state, and so does every command, well-formed or not, in every phase. R239 and R200 say so of accepted commands; that nothing else stops the machine is the model's inference (DEDUCED, notes/assumptions/20.md), and that a waiting or stalled block also answers a next state, the same one, is its choice (DESIGN CHOICE, notes/assumptions/4.md).
Rests on 70_reset_and_hazards.md R239, 60_exceptions.md R200. -/
def Obligations.StepAlwaysAnswersNext : Prop :=
  (∀ s : State, ∃ t, step s = .next t) ∧ (∀ (i : Instr) (s : State), ∃ t, exec i s = .next t)

/-! ### Reset -/

/-- Where the next move is RESET, the next state has PHASE = IDLE, ERRCODE = NONE, KLEN = 0 and an empty response port, a pending byte being withdrawn and not handed over; the bytes the host has already taken stay its own. How the unspecified items are chosen is the model's (notes/assumptions/2.md) and is not part of this.
Rests on 70_reset_and_hazards.md R230, 70_reset_and_hazards.md R231, 60_exceptions.md R208. -/
def Obligations.HardwareResetGivesResetState : Prop :=
  ∀ (s : State) (rest : List HostEvent), s.host = .reset :: rest →
    ∃ t, step s = .next t ∧ t.PHASE = .idle ∧ t.ERRCODE = .none ∧ t.KLEN.val = 0 ∧ t.RSP = none ∧
      t.host = rest ∧ t.received = s.received

/-- State.reset has PHASE = IDLE, ERRCODE = NONE, KLEN = 0, an empty response port and no move of the host; the states after any two resets, with whatever unspecified values, look the same to the host.
Rests on 10_state.md R36, 70_reset_and_hazards.md R232, 93_implementation_defined.md U10. -/
def Obligations.ResetLeavesDefinedItems : Prop :=
  State.reset.PHASE = .idle ∧ State.reset.ERRCODE = .none ∧ State.reset.KLEN.val = 0 ∧ State.reset.RSP = none ∧
    State.reset.host = [] ∧
    ∀ (m n : Nat) (host : List HostEvent) (received : List Byte),
      SameToHost (State.afterReset m host received) (State.afterReset n host received)

/-- With the response port empty, RST answers a state that the host cannot tell from the state after a hardware reset.
Rests on 42_transform_engine.md R146, 70_reset_and_hazards.md R231. -/
def Obligations.SoftResetLooksLikeHardwareReset : Prop :=
  ∀ s : State, s.RSP = none → ∃ t, exec .rst s = .next t ∧ SameToHost t (hardwareReset s)

/-! ### Invariants over every step -/

/-- The state after reset meets Inv: ERRCODE ≠ 0 exactly when PHASE = FAULT, RUN has a key and a permutation in S, BAD_KEYLEN goes with KLEN = 0; and so does the state after every later hardware reset.
Rests on 10_state.md R28, 10_state.md R34, 10_state.md R36. -/
def Obligations.ResetMeetsInvariant : Prop :=
  Inv State.reset ∧ ∀ (n : Nat) (host : List HostEvent) (received : List Byte), Inv (State.afterReset n host received)

/-- From every state that meets Inv, every step (command, rejected word, take, reset or wait) answers a state that meets Inv: ERRCODE ≠ 0 exactly when PHASE = FAULT (R28), PHASE = RUN implies KLEN ≥ 1 (R204) and S a permutation of 0..255 (R34), and BAD_KEYLEN goes with KLEN = 0.
Rests on 10_state.md R28, 10_state.md R34, 60_exceptions.md R204. -/
def Obligations.StepKeepsInvariant : Prop :=
  ∀ s t : State, Inv s → step s = .next t → Inv t

/-- Where two states agree on the ports, PHASE, ERRCODE, KLEN, the key bytes below KLEN and, in RUN, on S, X and Y, their next states agree on them too, response bytes included, whatever S, X, Y and the rest of KEYMEM hold.
Rests on 10_state.md R24, 10_state.md R35, 10_state.md R36, 70_reset_and_hazards.md R231. -/
def Obligations.StepKeepsHostUnableToTell : Prop :=
  ∀ s s' : State, SameToHost s s' → ∃ t t', step s = .next t ∧ step s' = .next t' ∧ SameToHost t t'

/-! ### Faults and phases -/

/-- In phase FAULT exactly NOP, RDST 0, RDST 1 and RST are executed and every other word changes nothing. In IDLE and RUN: the word that fails the check order (reserved opcode, reserved operand, phase, KLEN = 0 for START) raises the first of these faults and changes nothing else; every other word is executed as the command it decodes to, and raises no fault.
Formalises R139. -/
def Obligations.CheckOrderOfEveryWord : Prop :=
  ∀ (w : Word) (s : State),
    (s.PHASE = .fault →
      (w = 0x0000#16 → acceptWord w s = exec .nop s) ∧ (w = 0x0600#16 → acceptWord w s = exec (.rdst 0#8) s) ∧
      (w = 0x0601#16 → acceptWord w s = exec (.rdst 1#8) s) ∧ (w = 0x0700#16 → acceptWord w s = exec .rst s) ∧
      (w ≠ 0x0000#16 → w ≠ 0x0600#16 → w ≠ 0x0601#16 → w ≠ 0x0700#16 → acceptWord w s = .next s)) ∧
    (s.PHASE ≠ .fault → ∃ c, faultOf w s c ∧
      (c ≠ .none → acceptWord w s = .next { s with ERRCODE := c, PHASE := .fault }) ∧
      (c = .none → ∃ i t, decode w = .ok i ∧ acceptWord w s = exec i s ∧ exec i s = .next t ∧ t.PHASE ≠ .fault))

/-- For every word in IDLE and RUN the check order gives exactly one outcome, a code or none. Where it gives a code, the machine accepts the word, ERRCODE is that code and PHASE is FAULT afterwards, and nothing else has changed; where it gives none, the accepted word raises no fault. In particular a reserved opcode is always ILLEGAL_OPCODE, and START with a nonzero low byte in RUN reports RESERVED_OPERAND. A step from a state that meets the invariant never leads into RUN with KLEN = 0, and START in RUN reports PHASE_VIOLATION.
Formalises R204. -/
def Obligations.FirstCauseIsReported : Prop :=
  (∀ (w : Word) (s : State), s.PHASE ≠ .fault → ∃ c, faultOf w s c ∧ ∀ c', faultOf w s c' → c' = c) ∧
  (∀ (w : Word) (s : State) (c : ErrCode), s.PHASE ≠ .fault → faultOf w s c → c ≠ .none →
    acceptWord w s = .next { s with ERRCODE := c, PHASE := .fault }) ∧
  (∀ (w : Word) (s : State), s.PHASE ≠ .fault → faultOf w s .none → ∃ t, acceptWord w s = .next t ∧ t.PHASE ≠ .fault) ∧
  (∀ (w : Word) (s : State), s.PHASE ≠ .fault → 8 ≤ w.toNat / 256 →
    acceptWord w s = .next { s with ERRCODE := .illegalOpcode, PHASE := .fault }) ∧
  (∀ (s : State) (lo : Byte), s.PHASE = .run → lo ≠ 0#8 →
    acceptWord (wordOf 0x03#8 lo) s = .next { s with ERRCODE := .reservedOperand, PHASE := .fault }) ∧
  (∀ s : State, s.PHASE = .run →
    acceptWord 0x0301#16 s = .next { s with ERRCODE := .reservedOperand, PHASE := .fault } ∧
    acceptWord 0x0300#16 s = .next { s with ERRCODE := .phaseViolation, PHASE := .fault }) ∧
  (∀ s : State, Inv s → s.PHASE = .run → 1 ≤ s.KLEN.val) ∧
  (∀ s t : State, Inv s → step s = .next t → t.PHASE = .run → 1 ≤ t.KLEN.val)

/-- Where a step leads from IDLE or RUN into phase FAULT, it was on a word, ERRCODE now holds one of the four codes, PHASE is FAULT, and S, X, Y, KEYMEM, KLEN, the response port and the bytes received are as before.
Formalises R205. -/
def Obligations.FaultEntryIsPrecise : Prop :=
  ∀ s t : State, s.PHASE ≠ .fault → step s = .next t → t.PHASE = .fault →
    ∃ (w : Word) (rest : List HostEvent), Presents s w rest ∧ t.ERRCODE ≠ .none ∧ faultOf w s t.ERRCODE ∧
      t = { s with host := rest, ERRCODE := t.ERRCODE, PHASE := .fault }

/-- In phase FAULT: every word but 0x0000, 0x0600, 0x0601 and 0x0700 changes nothing and gives no response; 0x0000 changes nothing; 0x0600 and 0x0601 answer a byte and change nothing else; 0x0700 gives IDLE, NONE, KLEN = 0. A step that stays in phase FAULT keeps ERRCODE.
Formalises R207. -/
def Obligations.FaultPhaseIsFailStopped : Prop :=
  (∀ s : State, s.PHASE = .fault →
    (∀ w : Word, w ≠ 0x0000#16 → w ≠ 0x0600#16 → w ≠ 0x0601#16 → w ≠ 0x0700#16 → acceptWord w s = .next s) ∧
    acceptWord 0x0000#16 s = .next s ∧
    (∃ b, acceptWord 0x0600#16 s = .next { s with RSP := some b }) ∧
    (∃ b, acceptWord 0x0601#16 s = .next { s with RSP := some b }) ∧
    acceptWord 0x0700#16 s = .next { s with PHASE := .idle, ERRCODE := .none, KLEN := 0 }) ∧
  (∀ s t : State, s.PHASE = .fault → step s = .next t → t.PHASE = .fault → t.ERRCODE = s.ERRCODE)

/-- A step that leaves phase FAULT is on the accepted word 0x0700 or on a hardware reset, and gives PHASE = IDLE, ERRCODE = NONE and KLEN = 0; both of these do leave it. Any other step keeps PHASE, ERRCODE, KLEN, KEYMEM, S, X and Y.
Formalises R208. -/
def Obligations.FaultLastsUntilReset : Prop :=
  ∀ s t : State, s.PHASE = .fault → step s = .next t →
    (t.PHASE ≠ .fault → t.PHASE = .idle ∧ t.ERRCODE = .none ∧ t.KLEN.val = 0 ∧
      ((∃ rest, Presents s 0x0700#16 rest) ∨ ∃ rest, nextEvent s.RSP.isSome s.host = some (.reset, rest))) ∧
    (t.PHASE = .fault → t.ERRCODE = s.ERRCODE ∧ t.KLEN = s.KLEN ∧ t.KEYMEM = s.KEYMEM ∧ t.cipher = s.cipher) ∧
    (∀ rest, Presents s 0x0700#16 rest → t.PHASE = .idle) ∧
    (∀ rest, s.host = .reset :: rest → t.PHASE = .idle)

/-- A step that changes PHASE is one of: a reset to IDLE; START (0x0300) from IDLE with KLEN in 1..256 to RUN; FINISH (0x0500) from RUN to IDLE; a fault of the check order from IDLE or RUN to FAULT; RST (0x0700) to IDLE. Each of these, and FINISH in IDLE, leads to the phase the table gives.
Formalises R140. -/
def Obligations.PhaseTransitionsAreTheTable : Prop :=
  (∀ s t : State, step s = .next t → t.PHASE ≠ s.PHASE →
    (t.PHASE = .idle ∧ ∃ rest, nextEvent s.RSP.isSome s.host = some (.reset, rest)) ∨
    ∃ (w : Word) (rest : List HostEvent), Presents s w rest ∧
      ((w = 0x0300#16 ∧ s.PHASE = .idle ∧ 1 ≤ s.KLEN.val ∧ t.PHASE = .run) ∨
        (w = 0x0500#16 ∧ s.PHASE = .run ∧ t.PHASE = .idle) ∨
        (s.PHASE ≠ .fault ∧ t.PHASE = .fault ∧ ∃ c, faultOf w s c ∧ c ≠ .none) ∨
        (w = 0x0700#16 ∧ t.PHASE = .idle))) ∧
  (∀ (s : State) (rest : List HostEvent), s.host = .reset :: rest → ∃ t, step s = .next t ∧ t.PHASE = .idle) ∧
  (∀ (s : State) (w : Word) (rest : List HostEvent), Presents s w rest → ∃ t, step s = .next t ∧
    (w = 0x0300#16 → s.PHASE = .idle → 1 ≤ s.KLEN.val → t.PHASE = .run) ∧
    (w = 0x0500#16 → s.PHASE ≠ .fault → t.PHASE = .idle) ∧
    (∀ c, s.PHASE ≠ .fault → faultOf w s c → c ≠ .none → t.PHASE = .fault) ∧
    (w = 0x0700#16 → t.PHASE = .idle))

/-- A step that leads into phase RUN from another phase is on the word 0x0300 in IDLE with KLEN ≥ 1; afterwards S is ksa of the key bytes loaded, and X and Y are 0xFF, whatever they held before.
Rests on 42_transform_engine.md R131, 40_ksa.md R102. -/
def Obligations.OnlyStartOpensAnInvocation : Prop :=
  ∀ s t : State, s.PHASE ≠ .run → step s = .next t → t.PHASE = .run →
    ∃ rest, Presents s 0x0300#16 rest ∧ s.PHASE = .idle ∧ 1 ≤ s.KLEN.val ∧
      t.S = ksa (s.KEYMEM.toList.take s.KLEN.val) ∧ t.X = 0xFF#8 ∧ t.Y = 0xFF#8

/-- From a state in RUN, a step keeps KEYMEM and KLEN, or it is on RST (0x0700), which keeps KEYMEM and sets KLEN to 0, or it is a hardware reset, which sets KLEN to 0 too.
Rests on 10_state.md R25, 40_ksa.md R100, 40_ksa.md R101, 42_transform_engine.md R146, 70_reset_and_hazards.md R231. -/
def Obligations.KeyIsImmutableInRun : Prop :=
  ∀ s t : State, s.PHASE = .run → step s = .next t →
    (t.KEYMEM = s.KEYMEM ∧ t.KLEN = s.KLEN) ∨
    (t.KEYMEM = s.KEYMEM ∧ t.KLEN.val = 0 ∧ ∃ rest, Presents s 0x0700#16 rest) ∨
    (t.KLEN.val = 0 ∧ ∃ rest, nextEvent s.RSP.isSome s.host = some (.reset, rest))

/-- With the response port empty, an accepted word leaves a byte on the response port exactly when it is a DATA word in phase RUN or one of 0x0600 and 0x0601.
Rests on 42_transform_engine.md R144, 30_encoding.md R78, 60_exceptions.md R206. -/
def Obligations.OneResponsePerDataAndReadStatus : Prop :=
  ∀ (s t : State) (w : Word), s.RSP = none → acceptWord w s = .next t →
    (t.RSP.isSome = true ↔ (w.toNat / 256 = 4 ∧ s.PHASE = .run) ∨ w = 0x0600#16 ∨ w = 0x0601#16)

/-! ### The eight commands: effect, frame and completion -/

/-- NOP answers the same state in every phase; a word with opcode 0x00 and a nonzero low byte raises RESERVED_OPERAND in phases IDLE and RUN.
Formalises R143. -/
def Obligations.NopEffect : Prop :=
  (∀ s : State, exec .nop s = .next s) ∧
  (∀ (s : State) (w : Word), w.toNat / 256 = 0 → w.toNat % 256 ≠ 0 → s.PHASE ≠ .fault →
    acceptWord w s = .next { s with ERRCODE := .reservedOperand, PHASE := .fault })

/-- In IDLE, KCLR answers the state with KLEN = 0, every other item unchanged, KEYMEM included; in RUN it raises PHASE_VIOLATION; in FAULT nothing changes; a word with opcode 0x01 and a nonzero low byte raises RESERVED_OPERAND in IDLE and RUN.
Formalises R100. -/
def Obligations.KclrEffect : Prop :=
  (∀ s : State, s.PHASE = .idle → exec .kclr s = .next { s with KLEN := 0 }) ∧
  (∀ s : State, s.PHASE = .run → exec .kclr s = .next { s with ERRCODE := .phaseViolation, PHASE := .fault }) ∧
  (∀ s : State, s.PHASE = .fault → exec .kclr s = .next s) ∧
  (∀ (s : State) (w : Word), w.toNat / 256 = 1 → w.toNat % 256 ≠ 0 → s.PHASE ≠ .fault →
    acceptWord w s = .next { s with ERRCODE := .reservedOperand, PHASE := .fault })

/-- In IDLE with KLEN < 256, KPUSH b answers a state whose KEYMEM holds b at position KLEN and its old byte at every other position, whose KLEN is one more, and whose other items are unchanged; with KLEN = 256 nothing changes; in RUN it raises PHASE_VIOLATION; in FAULT nothing changes.
Formalises R101. -/
def Obligations.KpushEffect : Prop :=
  (∀ (s : State) (b : Byte), s.PHASE = .idle → s.KLEN.val < 256 →
    ∃ t, exec (.kpush b) s = .next t ∧ t.KLEN.val = s.KLEN.val + 1 ∧
      (∀ p : Nat, p < 256 → t.KEYMEM[p]? = if p = s.KLEN.val then some b else s.KEYMEM[p]?) ∧
      t = { s with KEYMEM := t.KEYMEM, KLEN := t.KLEN }) ∧
  (∀ (s : State) (b : Byte), s.PHASE = .idle → s.KLEN.val = 256 → exec (.kpush b) s = .next s) ∧
  (∀ (s : State) (b : Byte), s.PHASE = .run →
    exec (.kpush b) s = .next { s with ERRCODE := .phaseViolation, PHASE := .fault }) ∧
  (∀ (s : State) (b : Byte), s.PHASE = .fault → exec (.kpush b) s = .next s)

/-- In IDLE with KLEN ≥ 1, START answers the state with S = ksa(K) for the KLEN key bytes of KEYMEM, X = Y = 0xFF, PHASE = RUN and every other item unchanged; with KLEN = 0 it raises BAD_KEYLEN; in RUN it raises PHASE_VIOLATION; in FAULT nothing changes; a word with opcode 0x03 and a nonzero low byte raises RESERVED_OPERAND in IDLE and RUN, whatever KLEN.
Formalises R102. -/
def Obligations.StartEffect : Prop :=
  (∀ s : State, s.PHASE = .idle → 1 ≤ s.KLEN.val →
    exec .start s = .next { s with S := ksa (s.KEYMEM.toList.take s.KLEN.val), X := 0xFF#8, Y := 0xFF#8, PHASE := .run }) ∧
  (∀ s : State, s.PHASE = .idle → s.KLEN.val = 0 →
    exec .start s = .next { s with ERRCODE := .badKeylen, PHASE := .fault }) ∧
  (∀ s : State, s.PHASE = .run → exec .start s = .next { s with ERRCODE := .phaseViolation, PHASE := .fault }) ∧
  (∀ s : State, s.PHASE = .fault → exec .start s = .next s) ∧
  (∀ (s : State) (w : Word), w.toNat / 256 = 3 → w.toNat % 256 ≠ 0 → s.PHASE ≠ .fault →
    acceptWord w s = .next { s with ERRCODE := .reservedOperand, PHASE := .fault })

/-- In RUN, DATA b answers a state with X' = (X + 1) mod 256, Y' = (Y + S[X']) mod 256, S with the entries X' and Y' exchanged and every other entry unchanged, and the response byte b xor S'[(S'[X'] + S'[Y']) mod 256]; every other item is unchanged. In IDLE it raises PHASE_VIOLATION and in FAULT nothing changes, both without a response.
Formalises R116, R120. -/
def Obligations.DataEffect : Prop :=
  (∀ (s : State) (b : Byte), s.PHASE = .run →
    ∃ t, exec (.data b) s = .next t ∧
      t.X.toNat = (s.X.toNat + 1) % 256 ∧
      t.Y.toNat = (s.Y.toNat + (tableGet s.S t.X).toNat) % 256 ∧
      tableGet t.S t.X = tableGet s.S t.Y ∧ tableGet t.S t.Y = tableGet s.S t.X ∧
      (∀ k, k ≠ t.X → k ≠ t.Y → tableGet t.S k = tableGet s.S k) ∧
      (∃ k : Byte, k.toNat = ((tableGet t.S t.X).toNat + (tableGet t.S t.Y).toNat) % 256 ∧
        t.RSP = some (b ^^^ tableGet t.S k)) ∧
      t = { s with S := t.S, X := t.X, Y := t.Y, RSP := t.RSP }) ∧
  (∀ (s : State) (b : Byte), s.PHASE = .idle →
    exec (.data b) s = .next { s with ERRCODE := .phaseViolation, PHASE := .fault }) ∧
  (∀ (s : State) (b : Byte), s.PHASE = .fault → exec (.data b) s = .next s)

/-- In RUN, FINISH answers the state with PHASE = IDLE and every other item unchanged, S, X, Y, KEYMEM and KLEN included; in IDLE and in FAULT it answers the same state; a word with opcode 0x05 and a nonzero low byte raises RESERVED_OPERAND in IDLE and RUN.
Formalises R142. -/
def Obligations.FinishEffect : Prop :=
  (∀ s : State, s.PHASE = .run → exec .finish s = .next { s with PHASE := .idle }) ∧
  (∀ s : State, s.PHASE = .idle → exec .finish s = .next s) ∧
  (∀ s : State, s.PHASE = .fault → exec .finish s = .next s) ∧
  (∀ (s : State) (w : Word), w.toNat / 256 = 5 → w.toNat % 256 ≠ 0 → s.PHASE ≠ .fault →
    acceptWord w s = .next { s with ERRCODE := .reservedOperand, PHASE := .fault })

/-- In every phase, RDST 0 answers the byte 32 × KFULL + 4 × ERRCODE + PHASE and RDST 1 the byte KLEN mod 256, with every other item unchanged; a selector above 1 raises RESERVED_OPERAND in IDLE and RUN and changes nothing in FAULT.
Formalises R145. -/
def Obligations.RdstEffect : Prop :=
  (∀ s : State, ∃ b : Byte, exec (.rdst 0#8) s = .next { s with RSP := some b } ∧
    b.toNat = 32 * (if s.KLEN.val = 256 then 1 else 0) + 4 * errNumber s.ERRCODE + phaseNumber s.PHASE) ∧
  (∀ s : State, ∃ b : Byte, exec (.rdst 1#8) s = .next { s with RSP := some b } ∧ b.toNat = s.KLEN.val % 256) ∧
  (∀ (s : State) (sel : Byte), 1 < sel.toNat →
    (s.PHASE ≠ .fault → exec (.rdst sel) s = .next { s with ERRCODE := .reservedOperand, PHASE := .fault }) ∧
    (s.PHASE = .fault → exec (.rdst sel) s = .next s)) ∧
  (∀ (s : State) (w : Word), w.toNat / 256 = 6 → 1 < w.toNat % 256 →
    (s.PHASE ≠ .fault → acceptWord w s = .next { s with ERRCODE := .reservedOperand, PHASE := .fault }) ∧
    (s.PHASE = .fault → acceptWord w s = .next s))

/-- The byte RDST 0 answers has PHASE in bits 1:0, ERRCODE in bits 4:2, KFULL (KLEN = 256) in bit 5 and 0 in bits 7:6; two states with the same KLEN, ERRCODE and PHASE answer the same byte; and the spec's example values are such bytes.
Formalises R29. -/
def Obligations.StatusFields : Prop :=
  (∀ s : State, ∃ b : Byte, exec (.rdst 0#8) s = .next { s with RSP := some b } ∧
    (b.extractLsb' 0 2).toNat = phaseNumber s.PHASE ∧ (b.extractLsb' 2 3).toNat = errNumber s.ERRCODE ∧
    (b.extractLsb' 5 1).toNat = (if s.KLEN.val = 256 then 1 else 0) ∧ b.extractLsb' 6 2 = 0#2) ∧
  (∀ (s : State) (t : State), exec (.rdst 0#8) s = .next t →
    (s.PHASE = .idle → s.ERRCODE = .none → s.KLEN.val = 7 → t.RSP = some 0x00#8) ∧
    (s.PHASE = .run → s.ERRCODE = .none → s.KLEN.val = 7 → t.RSP = some 0x01#8) ∧
    (s.PHASE = .run → s.ERRCODE = .none → s.KLEN.val = 256 → t.RSP = some 0x21#8) ∧
    (s.PHASE = .fault → s.ERRCODE = .phaseViolation → s.KLEN.val < 256 → t.RSP = some 0x0E#8) ∧
    (s.PHASE = .fault → s.ERRCODE = .illegalOpcode → s.KLEN.val < 256 → t.RSP = some 0x06#8) ∧
    (s.PHASE = .fault → s.ERRCODE = .reservedOperand → s.KLEN.val < 256 → t.RSP = some 0x0A#8) ∧
    (s.PHASE = .fault → s.ERRCODE = .badKeylen → s.KLEN.val < 256 → t.RSP = some 0x12#8))

/-- In every phase, RST answers the state with PHASE = IDLE, ERRCODE = NONE, KLEN = 0 and every other item unchanged, KEYMEM, S, X and Y included; a word with opcode 0x07 and a nonzero low byte raises RESERVED_OPERAND in IDLE and RUN and changes nothing in FAULT; with the response port empty, the visible state then equals that after hardware reset.
Formalises R146. -/
def Obligations.RstEffect : Prop :=
  (∀ s : State, exec .rst s = .next { s with PHASE := .idle, ERRCODE := .none, KLEN := 0 }) ∧
  (∀ (s : State) (w : Word), w.toNat / 256 = 7 → w.toNat % 256 ≠ 0 →
    (s.PHASE ≠ .fault → acceptWord w s = .next { s with ERRCODE := .reservedOperand, PHASE := .fault }) ∧
    (s.PHASE = .fault → acceptWord w s = .next s)) ∧
  (∀ s : State, s.RSP = none → ∃ t, exec .rst s = .next t ∧ SameToHost t (hardwareReset s))

/-! ### The key scheduler -/

/-- For every p in 0..256, keyread(p) is KEYMEM[p] if p < KLEN and 0 if p ≥ KLEN, whatever KEYMEM holds there; the positions START asks for, in its rounds 0..254 with KLEN in 1..256, lie in 1..min(KLEN, 255), and the only one not below KLEN is KLEN itself, with KLEN ≤ 255.
Formalises R53. -/
def Obligations.GuardedKeyRead : Prop :=
  (∀ (keymem : Table) (klen : Fin 257) (p : Nat), p ≤ 256 →
    (p < klen.val → keymem[p]? = some (keyread keymem klen p)) ∧ (klen.val ≤ p → keyread keymem klen p = 0)) ∧
  (∀ (keymem : Table) (klen : Fin 257) (i : Nat), 1 ≤ klen.val → i ≤ 254 →
    ∃ p : Nat, keyx keymem klen i = keyread keymem klen p ∧ p = i % klen.val + 1 ∧
      1 ≤ p ∧ p ≤ min klen.val 255 ∧ (klen.val ≤ p → p = klen.val ∧ klen.val ≤ 255))

/-- Before the first round S[k] = k for all 256 entries and J = 0. Round I, on any table and accumulator and with any key byte, gives J' = (J + S[I] + keyx(I)) mod 256, the sum taken as a natural number, and S with the entries I and J' exchanged and every other entry unchanged; where J' = I nothing is changed. The first round is on entry 0, and rounds follow in ascending order.
Formalises R91, R92, R93. -/
def Obligations.KeyScheduleRound : Prop :=
  (∀ (kx : Nat → Byte), (∀ k, tableGet (ksaRounds kx 0).1 k = k) ∧ (ksaRounds kx 0).2 = 0 ∧
    ∀ I : Nat, ksaRounds kx (I + 1) = ksaRound (ksaRounds kx I) (BitVec.ofNat 8 I) (kx I)) ∧
  (∀ (S : Table) (J I key : Byte),
    (ksaRound (S, J) I key).2.toNat = (J.toNat + (tableGet S I).toNat + key.toNat) % 256 ∧
    tableGet (ksaRound (S, J) I key).1 I = tableGet S (ksaRound (S, J) I key).2 ∧
    tableGet (ksaRound (S, J) I key).1 (ksaRound (S, J) I key).2 = tableGet S I ∧
    (∀ k, k ≠ I → k ≠ (ksaRound (S, J) I key).2 → tableGet (ksaRound (S, J) I key).1 k = tableGet S k) ∧
    ((ksaRound (S, J) I key).2 = I → (ksaRound (S, J) I key).1 = S))

/-- For every KEYMEM and every KLEN in 1..256, and for every key given as its bytes with L ≥ 1, each entry of the table is the number the pseudocode of R96 leaves there: the identity fill, J = 0, 255 rounds I = 0..254 in ascending order, with the key bytes of R90.
Formalises R90, R94, R96. -/
def Obligations.StartTableMatchesPseudocode : Prop :=
  (∀ (keymem : Table) (klen : Fin 257) (k : Byte), 1 ≤ klen.val →
    (tableGet (ksaHw keymem klen) k).toNat = ksaNat (fun p => (keymem.toList.getD p 0).toNat) klen.val k.toNat) ∧
  (∀ (K : List Byte) (k : Byte), K ≠ [] →
    (tableGet (ksa K) k).toNat = ksaNat (fun p => (K.getD p 0).toNat) K.length k.toNat)

/-- For every key, the table the key schedule leaves is a bijection of 0..255; so is the one START builds for every KEYMEM and KLEN. The spec derives rule R97 itself from the other rules cited.
Rests on 40_ksa.md R97, 40_ksa.md R91, 40_ksa.md R93. -/
def Obligations.ScheduleIsPermutation : Prop :=
  (∀ K : List Byte, K ≠ [] → IsPermutation (ksa K)) ∧
  (∀ (keymem : Table) (klen : Fin 257), 1 ≤ klen.val → IsPermutation (ksaHw keymem klen))

/-- Two keys of the same length that agree at the positions 1..min(L-1, 255) give the same table and the same transform; in particular two keys that differ only in their first byte do, and all keys of length 1 give one table. The spec derives rule R98 itself from the other rules cited.
Rests on 40_ksa.md R98, 40_ksa.md R90, 40_ksa.md R94. -/
def Obligations.FirstKeyByteIsNeverRead : Prop :=
  (∀ K K' : List Byte, K.length = K'.length →
    (∀ p : Nat, 1 ≤ p → p ≤ min (K.length - 1) 255 → K[p]? = K'[p]?) →
    ksa K = ksa K' ∧ ∀ B : List Byte, transform K B = transform K' B) ∧
  (∀ (a b : Byte) (K : List Byte), ksa (a :: K) = ksa (b :: K) ∧
    ∀ B : List Byte, transform (a :: K) B = transform (b :: K) B) ∧
  (∀ a b : Byte, ksa [a] = ksa [b] ∧ ∀ i : Nat, keyxOfKey [a] i = 0)

/-- For L ≥ 256, keyx(i) = K[i + 1] for i in 0..254, and the table is that of the first 256 bytes; for L = 255, keyx(254) = 0, where for L = 256 it is K[255]. The spec derives rule R99 itself from the other rules cited.
Rests on 40_ksa.md R99, 40_ksa.md R90, 40_ksa.md R94. -/
def Obligations.LongKeysEqualTheirFirst256Bytes : Prop :=
  (∀ K : List Byte, 256 ≤ K.length →
    (∀ i : Nat, i ≤ 254 → K[i + 1]? = some (keyxOfKey K i)) ∧ ksa K = ksa (K.take 256) ∧
    ∀ K' : List Byte, 256 ≤ K'.length → (∀ p : Nat, 1 ≤ p → p ≤ 255 → K[p]? = K'[p]?) → ksa K = ksa K') ∧
  (∀ K : List Byte, K.length = 255 → keyxOfKey K 254 = 0) ∧
  (∀ K : List Byte, K.length = 256 → K[255]? = some (keyxOfKey K 254))

/-- Two states in IDLE with the same KLEN ≥ 1 and the same key bytes below KLEN have the same S, X and Y after START, whatever S, X, Y, the rest of KEYMEM and every other item held before. The spec derives rule R104 itself from the other rules cited.
Rests on 40_ksa.md R104, 40_ksa.md R102. -/
def Obligations.StartReadsOnlyTheLoadedKey : Prop :=
  ∀ s s' : State, s.PHASE = .idle → s'.PHASE = .idle → 1 ≤ s.KLEN.val → s.KLEN = s'.KLEN →
    (∀ p : Nat, p < s.KLEN.val → s.KEYMEM[p]? = s'.KEYMEM[p]?) →
    ∃ t t', exec .start s = .next t ∧ exec .start s' = .next t' ∧ t.S = t'.S ∧ t.X = t'.X ∧ t.Y = t'.Y

/-! ### The keystream engine and the transform -/

/-- In RUN, DATA a and DATA b lead to states that agree on every item but the response byte, and the two response bytes differ by a xor b.
Rests on 41_prga.md R118, 41_prga.md R119. -/
def Obligations.KeystreamIgnoresData : Prop :=
  ∀ (s : State) (a b : Byte), s.PHASE = .run →
    ∃ (t : State) (ks : Byte), exec (.data a) s = .next { t with RSP := some (a ^^^ ks) } ∧
      exec (.data b) s = .next { t with RSP := some (b ^^^ ks) }

/-- From every state in IDLE with a key and an empty response port whose host sends START (0x0300) and then any sequence of DATA, NOP and RDST commands, taking each response byte: after the steps of all of them PHASE is RUN, the response port is empty, and X is (n - 1) mod 256 for the n DATA commands among them, over the wrap at 256 and beyond, and 255 where there is none. So do n steps of the keystream engine from the cipher state START leaves, whatever the table. The spec derives rule R122 itself from R110 and R111.
Rests on 41_prga.md R122, 41_prga.md R110, 41_prga.md R111, 42_transform_engine.md R144. -/
def Obligations.IndexCountsTheBytes : Prop :=
  (∀ (s : State) (uses : List Use) (rest : List HostEvent), s.PHASE = .idle → 1 ≤ s.KLEN.val → s.RSP = none →
    s.host = .command 0x0300#16 :: (uses.flatMap useMoves ++ rest) →
    ∃ t, Host.Core.run core ((uses.flatMap useMoves).length + 1) s = .next t ∧
      t.PHASE = .run ∧ t.RSP = none ∧ t.host = rest ∧
      (uses.countP Use.isData = 0 → t.X = 0xFF#8) ∧
      (1 ≤ uses.countP Use.isData → t.X.toNat = (uses.countP Use.isData - 1) % 256)) ∧
  (∀ (t : Table) (n : Nat), 1 ≤ n → (prgaAdvance^[n] (startCipher t)).X.toNat = (n - 1) % 256)

/-- Whenever transform(K, B) is the byte sequence C, transform(K, C) is B: for every key with L ≥ 1, valid or not, and every message.
Formalises R132. -/
def Obligations.TransformIsItsOwnInverse : Prop :=
  ∀ K B C : List Byte, transform K B = some C → transform K C = some B

/-- transform(K, B) has exactly as many bytes as B; the empty message gives the empty output.
Formalises R133. -/
def Obligations.TransformKeepsLength : Prop :=
  (∀ K B C : List Byte, transform K B = some C → C.length = B.length) ∧
  (∀ K : List Byte, K ≠ [] → transform K [] = some [])

/-- For every key there is one keystream such that, for every message B and position n, output byte n is input byte n xor keystream byte n; the transform of a prefix of B is the prefix of the transform of B. The spec derives rule R135 itself from the other rules cited.
Rests on 42_transform_engine.md R135, 41_prga.md R118. -/
def Obligations.OutputByteDependsOnKeyAndItsInputByte : Prop :=
  (∀ K : List Byte, K ≠ [] → ∃ ks : Nat → Byte, ∀ B : List Byte, ∃ C, transform K B = some C ∧
    ∀ n : Nat, C[n]? = B[n]?.map fun b => b ^^^ ks n) ∧
  (∀ (K B C : List Byte) (n : Nat), transform K B = some C → transform K (B.take n) = some (C.take n))

/-- transform(K, B) gives a byte sequence exactly when K is not empty, whatever B is; START with KLEN = 0 faults.
Formalises R136. -/
def Obligations.TransformIsDefinedForEveryKey : Prop :=
  (∀ K B : List Byte, (∃ C, transform K B = some C) ↔ K ≠ []) ∧
  (∀ s : State, s.PHASE = .idle → s.KLEN.val = 0 →
    exec .start s = .next { s with ERRCODE := .badKeylen, PHASE := .fault })

/-- From every state in IDLE with an empty response port whose host sends KEY K (L ≥ 1), then CRYPT B, then CRYPT B2, taking each response byte: after the steps of KEY and the first CRYPT, the host has received exactly the N bytes of transform(K, B), which is transform(K', B) for the first min(L, 256) bytes K' of K, PHASE is IDLE, KLEN is min(L, 256), and KEYMEM holds the key; after the steps of the second CRYPT it has also received transform(K, B2). Phase FAULT is entered at no step. The spec derives rule R137 itself from the other rules cited.
Rests on 42_transform_engine.md R137, 42_transform_engine.md R130, 40_ksa.md R102, 41_prga.md R120. -/
def Obligations.KeyThenCryptComputesTransform : Prop :=
  ∀ (s : State) (K B B2 : List Byte) (rest : List HostEvent),
    K ≠ [] → s.PHASE = .idle → s.RSP = none → s.host = keyMoves K ++ cryptMoves B ++ cryptMoves B2 ++ rest →
    ∃ (t t2 : State) (C C2 : List Byte),
      transform K B = some C ∧ transform (K.take 256) B = some C ∧ transform K B2 = some C2 ∧ C.length = B.length ∧
      Host.Core.run core (K.length + 2 * B.length + 3) s = .next t ∧
      t.received = s.received ++ C ∧ t.PHASE = .idle ∧ t.ERRCODE = s.ERRCODE ∧ t.RSP = none ∧
      t.KLEN.val = min K.length 256 ∧ (∀ p : Nat, p < t.KLEN.val → t.KEYMEM[p]? = K[p]?) ∧
      Host.Core.run core (2 * B2.length + 2) t = .next t2 ∧
      t2.received = t.received ++ C2 ∧ t2.PHASE = .idle ∧ t2.RSP = none ∧ t2.KLEN = t.KLEN ∧ t2.KEYMEM = t.KEYMEM ∧
      t2.host = rest ∧
      (∀ (n : Nat) (u : State), n ≤ K.length + 2 * B.length + 3 + (2 * B2.length + 2) →
        Host.Core.run core n s = .next u → NoFault u)

/-! ### The host software around the block -/

/-- new(K, mode) gives the cipher instance with that key and mode exactly when K has at least 6 bytes, one of them in 0-9, A-Z or a-z and one of them one of the ten characters; else it gives the validation error with a suggested key. `abc_12` is accepted; `abcdef` and the first six punctuation characters are rejected. (ASCII letters and digits are the spec's decision D17. That the error carries its suggested key as bytes, of the default length 128 of R182, is the model's choice: DESIGN CHOICE, notes/assumptions/18.md; U5 calls the hint any value.)
Rests on 43_collaborators.md R172, 43_collaborators.md R173, 43_collaborators.md R174, 43_collaborators.md R182, 43_collaborators.md R185. -/
def Obligations.KeyValidationAcceptsExactlyValidKeys : Prop :=
  (∀ (K : List Byte) (mode : OutputMode) (draw : Nat),
    (newCipher K mode draw = .ok { key := K, mode := mode } ↔
      6 ≤ K.length ∧
      (∃ b ∈ K, (48 ≤ b.toNat ∧ b.toNat ≤ 57) ∨ (65 ≤ b.toNat ∧ b.toNat ≤ 90) ∨ (97 ≤ b.toNat ∧ b.toNat ≤ 122)) ∧
      (∃ b ∈ K, Char.ofNat b.toNat ∈ ['_', '=', '&', '"', '.', '+', '-', '*', '?', '\''])) ∧
    (newCipher K mode draw ≠ .ok { key := K, mode := mode } →
      ∃ hint, newCipher K mode draw = .error (.invalidKey hint) ∧ hint.length = 128)) ∧
  (∀ draw : Nat,
    newCipher [0x61, 0x62, 0x63, 0x5F, 0x31, 0x32] .base64 draw =
      .ok { key := [0x61, 0x62, 0x63, 0x5F, 0x31, 0x32], mode := .base64 } ∧
    (∃ hint, newCipher [0x61, 0x62, 0x63, 0x64, 0x65, 0x66] .base64 draw = .error (.invalidKey hint)) ∧
    (∃ hint, newCipher [0x5F, 0x3D, 0x26, 0x22, 0x2E, 0x2B] .base64 draw = .error (.invalidKey hint)))

/-- For every length and every draw, the generated key has exactly that length and every byte is in the printable range 33..126. Nothing is claimed about which bytes are drawn.
Rests on 43_collaborators.md R182. -/
def Obligations.GeneratedKeysArePrintable : Prop :=
  ∀ length draw : Nat, (generateKey length draw).length = length ∧
    ∀ b ∈ generateKey length draw, 33 ≤ b.toNat ∧ b.toNat ≤ 126

/-- For every cipher instance whose key is not empty, every translate flag and every input, encode gives a text and decode of that text with the same flag gives the input back, without a decode error, whatever the open decoder parameters are.
Rests on 43_collaborators.md R185, 43_collaborators.md R176, 43_collaborators.md R179, 43_collaborators.md R180. -/
def Obligations.EncodeThenDecodeReturnsInput : Prop :=
  ∀ (c : Cipher) (B : List Byte) (translate : Bool), c.key ≠ [] →
    ∃ text, c.encode B translate = some text ∧ c.decode text translate = some (.ok B)

/-- The hex text of a byte sequence has twice its length, all characters in 0-9 and a-f, the n-th byte being 16 times the value of character 2n plus that of character 2n + 1, where the value of a digit is its place in the list 0, 1, ..., 9, a, ..., f; hex text of odd length, or with a character that is no hex digit of either case, is a decode error.
Rests on 43_collaborators.md R178, 43_collaborators.md R181. -/
def Obligations.HexTextIsLowercasePairs : Prop :=
  (∀ B : List Byte, (hexEncode B).length = 2 * B.length ∧
    (∀ c ∈ hexEncode B, c ∈ hexDigits) ∧
    ∀ (n : Nat) (b : Byte), B[n]? = some b → ∃ hi lo : Nat, hi < 16 ∧ lo < 16 ∧
      (hexEncode B)[2 * n]? = hexDigits[hi]? ∧ (hexEncode B)[2 * n + 1]? = hexDigits[lo]? ∧
      b.toNat = 16 * hi + lo) ∧
  (∀ text : List Char, text.length % 2 = 1 → hexDecode text = .error .malformedText) ∧
  (∀ (text : List Char) (c : Char), c ∈ text →
    c ∉ ['0', '1', '2', '3', '4', '5', '6', '7', '8', '9', 'a', 'b', 'c', 'd', 'e', 'f', 'A', 'B', 'C', 'D', 'E', 'F'] →
    hexDecode text = .error .malformedText)

/-- A text that contains a character that is no letter or digit, none of + / - _ =, and no white space, decodes to a decode error in Base64 mode, whatever the key, the translate flag, the rest of the text and the open decoder parameters are, and the driver sends no command for it, so no byte of it reaches the block. (The four white space characters are the model's choice, notes/assumptions/15.md.)
Rests on 43_collaborators.md R181, 43_collaborators.md R183, 60_exceptions.md R211. -/
def Obligations.InvalidBase64CharactersAreDecodeErrors : Prop :=
  ∀ (c : Cipher) (text : List Char) (translate : Bool) (bad : Char), c.mode = .base64 → bad ∈ text →
    ¬ (48 ≤ bad.toNat ∧ bad.toNat ≤ 57) → ¬ (65 ≤ bad.toNat ∧ bad.toNat ≤ 90) → ¬ (97 ≤ bad.toNat ∧ bad.toNat ≤ 122) →
    bad ∉ ['+', '/', '-', '_', '=', ' ', '\t', '\n', '\r'] →
    c.decode text translate = some (.error .malformedText) ∧ decodeMoves c text translate = []

/-- The translated Base64 text of every byte sequence contains no `+`, `/` or `=` and has ceil(4 × N / 3) characters; the untranslated text has 4 × ceil(N / 3).
Rests on 43_collaborators.md R177, 43_collaborators.md R185. -/
def Obligations.UrlSafeTextHasNoPlusSlashOrPadding : Prop :=
  ∀ B : List Byte,
    ('+' ∉ frame .base64 true B ∧ '/' ∉ frame .base64 true B ∧ '=' ∉ frame .base64 true B) ∧
    (frame .base64 true B).length = (4 * B.length + 2) / 3 ∧
    (frame .base64 false B).length = 4 * ((B.length + 2) / 3)

/-- For every non-empty byte sequence and either translate flag, the Base64 text and the hex text differ; for the empty one both are empty.
Rests on 43_collaborators.md R186, 43_collaborators.md R185. -/
def Obligations.ModesGiveDifferentTexts : Prop :=
  (∀ (B : List Byte) (translate : Bool), B ≠ [] → frame .base64 translate B ≠ frame .hex translate B) ∧
  (∀ translate : Bool, frame .base64 translate [] = [] ∧ frame .hex translate [] = [])
end

