-- ==== Sys2Proof/Laws/Decode.lean ====
section
/-! SUPPORT. Laws/Decode.lean: the two fields of a word and the word made of them. -/

namespace Sys2Proof

theorem wordOf_toNat (op lo : Byte) : (wordOf op lo).toNat = 256 * op.toNat + lo.toNat := by
  have := lo.isLt
  rw [wordOf, BitVec.toNat_append, Nat.shiftLeft_eq, mul_comm, ← Nat.two_pow_add_eq_or_of_lt (by omega)]

@[simp] theorem opcodeOf_wordOf (op lo : Byte) : opcodeOf (wordOf op lo) = op := by
  apply BitVec.eq_of_toNat_eq
  have := op.isLt
  have := lo.isLt
  simp only [opcodeOf, wordOf_toNat, BitVec.extractLsb'_toNat, Nat.shiftRight_eq_div_pow]
  omega

@[simp] theorem lowByteOf_wordOf (op lo : Byte) : lowByteOf (wordOf op lo) = lo := by
  apply BitVec.eq_of_toNat_eq
  have := lo.isLt
  simp only [lowByteOf, wordOf_toNat, BitVec.extractLsb'_toNat, Nat.shiftRight_zero]
  omega

theorem opcodeOf_toNat (w : Word) : (opcodeOf w).toNat = w.toNat / 256 := by
  have := w.isLt
  simp only [opcodeOf, BitVec.extractLsb'_toNat, Nat.shiftRight_eq_div_pow]
  omega

theorem lowByteOf_toNat (w : Word) : (lowByteOf w).toNat = w.toNat % 256 := by
  simp [lowByteOf]

/-- A word is its opcode byte and its low byte (R70). -/
theorem wordOf_fields (w : Word) : wordOf (opcodeOf w) (lowByteOf w) = w := by
  apply BitVec.eq_of_toNat_eq
  rw [wordOf_toNat, opcodeOf_toNat, lowByteOf_toNat]
  omega

theorem wordOf_inj {a b c d : Byte} : wordOf a b = wordOf c d ↔ a = c ∧ b = d := by
  refine ⟨fun h => ?_, by rintro ⟨rfl, rfl⟩; rfl⟩
  have h₁ := congrArg opcodeOf h
  have h₂ := congrArg lowByteOf h
  simp only [opcodeOf_wordOf, lowByteOf_wordOf] at h₁ h₂
  exact ⟨h₁, h₂⟩

/-- Everything the decoder can answer, by opcode and low byte. -/
theorem decode_cases (op lo : Byte) :
    (op = 0 ∧ lo = 0 ∧ decode (wordOf op lo) = .ok .nop) ∨
    (op = 1 ∧ lo = 0 ∧ decode (wordOf op lo) = .ok .kclr) ∨
    (op = 2 ∧ decode (wordOf op lo) = .ok (.kpush lo)) ∨
    (op = 3 ∧ lo = 0 ∧ decode (wordOf op lo) = .ok .start) ∨
    (op = 4 ∧ decode (wordOf op lo) = .ok (.data lo)) ∨
    (op = 5 ∧ lo = 0 ∧ decode (wordOf op lo) = .ok .finish) ∨
    (op = 6 ∧ lo.toNat ≤ 1 ∧ decode (wordOf op lo) = .ok (.rdst lo)) ∨
    (op = 7 ∧ lo = 0 ∧ decode (wordOf op lo) = .ok .rst) ∨
    (8 ≤ op.toNat ∧ decode (wordOf op lo) = .error .reservedOpcode) ∨
    ((op = 0 ∨ op = 1 ∨ op = 3 ∨ op = 5 ∨ op = 7) ∧ lo ≠ 0 ∧ decode (wordOf op lo) = .error .reservedOperand) ∨
    (op = 6 ∧ 1 < lo.toNat ∧ decode (wordOf op lo) = .error .reservedOperand) := by
  unfold decode
  simp only [opcodeOf_wordOf, lowByteOf_wordOf, decodeFormatN, decodeRdst]
  split_ifs with h0 hl h1 hl h2 h3 hl h4 h5 hl h6 hl h7 hl <;> simp_all
  · simp only [← BitVec.toNat_inj, BitVec.toNat_ofNat] at h0 h1 h2 h3 h4 h5 h6 h7
    omega

end Sys2Proof
end

