-- ==== Sys2Proof/Laws/State.lean ====
section
/-! SUPPORT. Laws/State.lean: one lemma per field per update of State, each true by rfl, so that no proof unfolds a
record update. -/

namespace Sys2Proof.Machine

/-! ### withCipher -/

@[simp] theorem withCipher_S (s : State) (c : CipherState) : (s.withCipher c).S = c.S := rfl
@[simp] theorem withCipher_X (s : State) (c : CipherState) : (s.withCipher c).X = c.X := rfl
@[simp] theorem withCipher_Y (s : State) (c : CipherState) : (s.withCipher c).Y = c.Y := rfl
@[simp] theorem withCipher_KEYMEM (s : State) (c : CipherState) : (s.withCipher c).KEYMEM = s.KEYMEM := rfl
@[simp] theorem withCipher_KLEN (s : State) (c : CipherState) : (s.withCipher c).KLEN = s.KLEN := rfl
@[simp] theorem withCipher_PHASE (s : State) (c : CipherState) : (s.withCipher c).PHASE = s.PHASE := rfl
@[simp] theorem withCipher_ERRCODE (s : State) (c : CipherState) : (s.withCipher c).ERRCODE = s.ERRCODE := rfl
@[simp] theorem withCipher_RSP (s : State) (c : CipherState) : (s.withCipher c).RSP = s.RSP := rfl
@[simp] theorem withCipher_host (s : State) (c : CipherState) : (s.withCipher c).host = s.host := rfl
@[simp] theorem withCipher_received (s : State) (c : CipherState) : (s.withCipher c).received = s.received := rfl
@[simp] theorem withCipher_resets (s : State) (c : CipherState) : (s.withCipher c).resets = s.resets := rfl

/-! ### emit -/

@[simp] theorem emit_S (b : Byte) (s : State) : (emit b s).S = s.S := rfl
@[simp] theorem emit_X (b : Byte) (s : State) : (emit b s).X = s.X := rfl
@[simp] theorem emit_Y (b : Byte) (s : State) : (emit b s).Y = s.Y := rfl
@[simp] theorem emit_KEYMEM (b : Byte) (s : State) : (emit b s).KEYMEM = s.KEYMEM := rfl
@[simp] theorem emit_KLEN (b : Byte) (s : State) : (emit b s).KLEN = s.KLEN := rfl
@[simp] theorem emit_PHASE (b : Byte) (s : State) : (emit b s).PHASE = s.PHASE := rfl
@[simp] theorem emit_ERRCODE (b : Byte) (s : State) : (emit b s).ERRCODE = s.ERRCODE := rfl
@[simp] theorem emit_RSP (b : Byte) (s : State) : (emit b s).RSP = some b := rfl
@[simp] theorem emit_host (b : Byte) (s : State) : (emit b s).host = s.host := rfl
@[simp] theorem emit_received (b : Byte) (s : State) : (emit b s).received = s.received := rfl
@[simp] theorem emit_resets (b : Byte) (s : State) : (emit b s).resets = s.resets := rfl

/-! ### raiseFault -/

@[simp] theorem raiseFault_S (code : ErrCode) (s : State) : (raiseFault code s).S = s.S := rfl
@[simp] theorem raiseFault_X (code : ErrCode) (s : State) : (raiseFault code s).X = s.X := rfl
@[simp] theorem raiseFault_Y (code : ErrCode) (s : State) : (raiseFault code s).Y = s.Y := rfl
@[simp] theorem raiseFault_KEYMEM (code : ErrCode) (s : State) : (raiseFault code s).KEYMEM = s.KEYMEM := rfl
@[simp] theorem raiseFault_KLEN (code : ErrCode) (s : State) : (raiseFault code s).KLEN = s.KLEN := rfl
@[simp] theorem raiseFault_PHASE (code : ErrCode) (s : State) : (raiseFault code s).PHASE = .fault := rfl
@[simp] theorem raiseFault_ERRCODE (code : ErrCode) (s : State) : (raiseFault code s).ERRCODE = code := rfl
@[simp] theorem raiseFault_RSP (code : ErrCode) (s : State) : (raiseFault code s).RSP = s.RSP := rfl
@[simp] theorem raiseFault_host (code : ErrCode) (s : State) : (raiseFault code s).host = s.host := rfl
@[simp] theorem raiseFault_received (code : ErrCode) (s : State) : (raiseFault code s).received = s.received := rfl
@[simp] theorem raiseFault_resets (code : ErrCode) (s : State) : (raiseFault code s).resets = s.resets := rfl

/-! ### softReset -/

@[simp] theorem softReset_S (s : State) : (softReset s).S = s.S := rfl
@[simp] theorem softReset_X (s : State) : (softReset s).X = s.X := rfl
@[simp] theorem softReset_Y (s : State) : (softReset s).Y = s.Y := rfl
@[simp] theorem softReset_KEYMEM (s : State) : (softReset s).KEYMEM = s.KEYMEM := rfl
@[simp] theorem softReset_KLEN (s : State) : (softReset s).KLEN = 0 := rfl
@[simp] theorem softReset_PHASE (s : State) : (softReset s).PHASE = .idle := rfl
@[simp] theorem softReset_ERRCODE (s : State) : (softReset s).ERRCODE = .none := rfl
@[simp] theorem softReset_RSP (s : State) : (softReset s).RSP = s.RSP := rfl
@[simp] theorem softReset_host (s : State) : (softReset s).host = s.host := rfl
@[simp] theorem softReset_received (s : State) : (softReset s).received = s.received := rfl
@[simp] theorem softReset_resets (s : State) : (softReset s).resets = s.resets := rfl

/-! ### hardwareReset -/

@[simp] theorem hardwareReset_S (s : State) : (hardwareReset s).S = Config.resetS s.resets := rfl
@[simp] theorem hardwareReset_X (s : State) : (hardwareReset s).X = Config.resetX s.resets := rfl
@[simp] theorem hardwareReset_Y (s : State) : (hardwareReset s).Y = Config.resetY s.resets := rfl
@[simp] theorem hardwareReset_KEYMEM (s : State) : (hardwareReset s).KEYMEM = Config.resetKeymem s.resets := rfl
@[simp] theorem hardwareReset_KLEN (s : State) : (hardwareReset s).KLEN = 0 := rfl
@[simp] theorem hardwareReset_PHASE (s : State) : (hardwareReset s).PHASE = .idle := rfl
@[simp] theorem hardwareReset_ERRCODE (s : State) : (hardwareReset s).ERRCODE = .none := rfl
@[simp] theorem hardwareReset_RSP (s : State) : (hardwareReset s).RSP = none := rfl
@[simp] theorem hardwareReset_host (s : State) : (hardwareReset s).host = s.host := rfl
@[simp] theorem hardwareReset_received (s : State) : (hardwareReset s).received = s.received := rfl
@[simp] theorem hardwareReset_resets (s : State) : (hardwareReset s).resets = s.resets + 1 := rfl

/-! ### presentWord -/

@[simp] theorem presentWord_S (w : Word) (s : State) : (presentWord w s).S = s.S := rfl
@[simp] theorem presentWord_X (w : Word) (s : State) : (presentWord w s).X = s.X := rfl
@[simp] theorem presentWord_Y (w : Word) (s : State) : (presentWord w s).Y = s.Y := rfl
@[simp] theorem presentWord_KEYMEM (w : Word) (s : State) : (presentWord w s).KEYMEM = s.KEYMEM := rfl
@[simp] theorem presentWord_KLEN (w : Word) (s : State) : (presentWord w s).KLEN = s.KLEN := rfl
@[simp] theorem presentWord_PHASE (w : Word) (s : State) : (presentWord w s).PHASE = s.PHASE := rfl
@[simp] theorem presentWord_ERRCODE (w : Word) (s : State) : (presentWord w s).ERRCODE = s.ERRCODE := rfl
@[simp] theorem presentWord_RSP (w : Word) (s : State) : (presentWord w s).RSP = none := rfl
@[simp] theorem presentWord_host (w : Word) (s : State) : (presentWord w s).host = .command w :: s.host := rfl
@[simp] theorem presentWord_received (w : Word) (s : State) : (presentWord w s).received = s.received := rfl
@[simp] theorem presentWord_resets (w : Word) (s : State) : (presentWord w s).resets = s.resets := rfl

/-! ### withHost -/

@[simp] theorem withHost_S (s : State) (left : List HostEvent) : (s.withHost left).S = s.S := rfl
@[simp] theorem withHost_X (s : State) (left : List HostEvent) : (s.withHost left).X = s.X := rfl
@[simp] theorem withHost_Y (s : State) (left : List HostEvent) : (s.withHost left).Y = s.Y := rfl
@[simp] theorem withHost_KEYMEM (s : State) (left : List HostEvent) : (s.withHost left).KEYMEM = s.KEYMEM := rfl
@[simp] theorem withHost_KLEN (s : State) (left : List HostEvent) : (s.withHost left).KLEN = s.KLEN := rfl
@[simp] theorem withHost_PHASE (s : State) (left : List HostEvent) : (s.withHost left).PHASE = s.PHASE := rfl
@[simp] theorem withHost_ERRCODE (s : State) (left : List HostEvent) : (s.withHost left).ERRCODE = s.ERRCODE := rfl
@[simp] theorem withHost_RSP (s : State) (left : List HostEvent) : (s.withHost left).RSP = s.RSP := rfl
@[simp] theorem withHost_host (s : State) (left : List HostEvent) : (s.withHost left).host = left := rfl
@[simp] theorem withHost_received (s : State) (left : List HostEvent) : (s.withHost left).received = s.received := rfl
@[simp] theorem withHost_resets (s : State) (left : List HostEvent) : (s.withHost left).resets = s.resets := rfl
@[simp] theorem withHost_cipher (s : State) (left : List HostEvent) : (s.withHost left).cipher = s.cipher := rfl
theorem withHost_eq (s : State) (left : List HostEvent) : s.withHost left = { s with host := left } := rfl

/-! ### cipher -/

@[simp] theorem cipher_S (s : State) : s.cipher.S = s.S := rfl
@[simp] theorem cipher_X (s : State) : s.cipher.X = s.X := rfl
@[simp] theorem cipher_Y (s : State) : s.cipher.Y = s.Y := rfl
@[simp] theorem withCipher_cipher (s : State) (c : CipherState) : (s.withCipher c).cipher = c := rfl
@[simp] theorem cipher_withCipher (s : State) : s.withCipher s.cipher = s := rfl

end Sys2Proof.Machine
end

