-- ==== Sys2Proof/Laws/Tables.lean ====
section
/-! SUPPORT. Laws/Tables.lean: reading a table after a write, a swap and the identity fill; a swap keeps a permutation a
permutation. -/

namespace Sys2Proof.Machine

/-- Reading after `T[i] <- v` (R11). -/
theorem tableGet_tableSet (t : Table) (i v k : Byte) :
    tableGet (tableSet t i v) k = if k = i then v else tableGet t k := by
  unfold tableGet tableSet
  rw [Vector.getElem_set]
  simp only [← BitVec.toNat_inj, eq_comm]

/-- Reading after `swap(T, p, q)` (R10): the two entries change places. -/
theorem tableGet_tableSwap (t : Table) (p q k : Byte) :
    tableGet (tableSwap t p q) k = if k = q then tableGet t p else if k = p then tableGet t q else tableGet t k := by
  simp only [tableSwap, tableGet_tableSet]

/-- A swap is a permutation of the indices. -/
theorem tableGet_tableSwap_eq_comp (t : Table) (p q : Byte) :
    tableGet (tableSwap t p q) = tableGet t ∘ Equiv.swap p q := by
  funext k
  rw [tableGet_tableSwap, Function.comp, Equiv.swap_apply_def]
  split_ifs with h₁ h₂ <;> simp_all

/-- `swap(T, p, p)` "leaves T unchanged" (R10), read entry by entry. -/
theorem tableGet_tableSwap_self (t : Table) (p k : Byte) : tableGet (tableSwap t p p) k = tableGet t k := by
  rw [tableGet_tableSwap]
  split_ifs with h <;> simp_all

/-- Entry I of the identity fill is I (R91). -/
@[simp] theorem tableGet_identityTable (k : Byte) : tableGet identityTable k = k := by
  simp [tableGet, identityTable, Vector.getElem_mk]

/-- Two tables with the same entries are the same table. -/
theorem table_ext {t u : Table} (h : ∀ k, tableGet t k = tableGet u k) : t = u := by
  refine Vector.ext fun i hi => ?_
  have := h (BitVec.ofNat 8 i)
  simpa only [tableGet, BitVec.toNat_ofNat, Nat.mod_eq_of_lt (show i < 2 ^ 8 by omega)] using this

/-- A swap keeps a permutation a permutation (R34, R97). -/
theorem tableSwap_isPermutation {t : Table} (h : IsPermutation t) (p q : Byte) : IsPermutation (tableSwap t p q) := by
  unfold IsPermutation
  rw [tableGet_tableSwap_eq_comp]
  exact Function.Bijective.comp h (Equiv.bijective _)

/-- The identity fill is a permutation (R97). -/
theorem identityTable_isPermutation : IsPermutation identityTable := by
  have : tableGet identityTable = id := funext tableGet_identityTable
  unfold IsPermutation
  rw [this]
  exact Function.bijective_id

end Sys2Proof.Machine
end

