-- ==== Sys2Proof/Laws/Exec.lean ====
section
/-! SUPPORT. Laws/Exec.lean: what each shared operation and each kind of step can do, said once: later proofs cite these lemmas
and unfold nothing. -/

namespace Sys2Proof.Machine

/-! ### The shared operations -/

/-- KPUSH's effect while there is room (R101). -/
theorem appendKey_room {s : State} (b : Byte) (h : s.KLEN.val < 256) :
    appendKey b s = { s with KEYMEM := s.KEYMEM.set s.KLEN.val b h, KLEN := ⟨s.KLEN.val + 1, by omega⟩ } := by
  simp [appendKey, h]

/-- KPUSH's effect when KLEN = 256: none (R101). -/
theorem appendKey_full {s : State} (b : Byte) (h : ¬ s.KLEN.val < 256) : appendKey b s = s := by
  simp [appendKey, h]

/-- A rejected word in phase FAULT changes nothing (R207). -/
theorem raiseUnlessFault_fault {s : State} (code : ErrCode) (h : s.PHASE = .fault) : raiseUnlessFault code s = s := by
  simp [raiseUnlessFault, h]

/-- A rejected word in phase IDLE or RUN raises its fault (R75, R76). -/
theorem raiseUnlessFault_live {s : State} (code : ErrCode) (h : s.PHASE ≠ .fault) :
    raiseUnlessFault code s = raiseFault code s := by
  unfold raiseUnlessFault
  split <;> simp_all

/-- The two cases of the host's take (R51, R206). -/
theorem takeResponse_none {s : State} (h : s.RSP = none) : takeResponse s = s := by simp [takeResponse, h]

theorem takeResponse_some {s : State} {b : Byte} (h : s.RSP = some b) :
    takeResponse s = { s with RSP := none, received := s.received ++ [b] } := by simp [takeResponse, h]

/-! ### What a command can do (R141) -/

/-- Everything exec can do, by command and phase. -/
theorem exec_cases {i : Instr} {s t : State} (h : exec i s = .next t) :
    (i = .nop ∧ t = s) ∨
    (s.PHASE = .fault ∧ t = s ∧ (i = .kclr ∨ i = .start ∨ i = .finish ∨ (∃ b, i = .kpush b) ∨ ∃ b, i = .data b)) ∨
    (s.PHASE = .run ∧ t = raiseFault .phaseViolation s ∧ (i = .kclr ∨ i = .start ∨ ∃ b, i = .kpush b)) ∨
    (s.PHASE = .idle ∧ t = raiseFault .phaseViolation s ∧ ∃ b, i = .data b) ∨
    (s.PHASE = .idle ∧ s.KLEN.val = 0 ∧ t = raiseFault .badKeylen s ∧ i = .start) ∨
    (s.PHASE = .idle ∧ t = { s with KLEN := 0 } ∧ i = .kclr) ∨
    (s.PHASE = .idle ∧ ∃ b, t = appendKey b s ∧ i = .kpush b) ∨
    (s.PHASE = .idle ∧ 1 ≤ s.KLEN.val ∧ i = .start ∧
      t = { s.withCipher (startCipher (ksaHw s.KEYMEM s.KLEN)) with PHASE := .run }) ∨
    (s.PHASE = .run ∧ ∃ b, i = .data b ∧
      t = emit (b ^^^ keystreamByte (prgaAdvance s.cipher)) (s.withCipher (prgaAdvance s.cipher))) ∨
    (s.PHASE ≠ .fault ∧ t = { s with PHASE := .idle } ∧ i = .finish) ∨
    (i = .rdst 0#8 ∧ t = emit (statusByte s) s) ∨
    (i = .rdst 1#8 ∧ t = emit (klenLow s) s) ∨
    (∃ sel, i = .rdst sel ∧ sel ≠ 0#8 ∧ sel ≠ 1#8 ∧ t = raiseUnlessFault .reservedOperand s) ∨
    (i = .rst ∧ t = softReset s) := by
  cases i <;> simp only [exec] at h
  case nop => simp only [execNop] at h; cases h; simp
  case kclr =>
    unfold execKclr at h
    split at h <;> (cases h; simp_all)
  case kpush b =>
    unfold execKpush at h
    split at h <;> (cases h; simp_all)
  case start =>
    unfold execStart at h
    split at h
    · cases h; simp_all
    · cases h; simp_all
    · rename_i hp
      split at h
      · rename_i hk
        cases h
        exact .inr (.inr (.inr (.inr (.inl ⟨hp, hk, rfl, rfl⟩))))
      · rename_i hk
        have ht := Host.Outcome.next.inj h
        exact .inr (.inr (.inr (.inr (.inr (.inr (.inr (.inl ⟨hp, by omega, rfl, ht.symm⟩)))))))
  case data b =>
    unfold execData at h
    split at h
    · rename_i hp; cases h; exact .inr (.inl ⟨hp, rfl, by simp⟩)
    · rename_i hp; cases h; exact .inr (.inr (.inr (.inl ⟨hp, rfl, b, rfl⟩)))
    · rename_i hp; cases h
      exact .inr (.inr (.inr (.inr (.inr (.inr (.inr (.inr (.inl ⟨hp, b, rfl, rfl⟩))))))))
  case finish =>
    unfold execFinish at h
    split at h <;> (cases h; simp_all)
  case rdst sel =>
    unfold execRdst at h
    split at h
    · cases h; simp_all
    · split at h <;> (cases h; simp_all)
  case rst => simp only [execRst] at h; cases h; simp

/-- Every command has a next state: the data path cannot fault and nothing stops (R105, R200). -/
theorem exec_next (i : Instr) (s : State) : ∃ t, exec i s = .next t := by
  cases i <;> simp only [exec, execNop, execKclr, execKpush, execStart, execData, execFinish, execRdst, execRst] <;>
    (repeat' split) <;> exact ⟨_, rfl⟩

/-! ### What a word on the command port can do -/

/-- A word that is a command runs it (R74). -/
theorem acceptWord_ok {w : Word} {i : Instr} (s : State) (h : decode w = .ok i) : acceptWord w s = exec i s := by
  simp [acceptWord, h]

/-- A word that is none raises its fault or is refused (R75, R76). -/
theorem acceptWord_error {w : Word} {r : Reject} (s : State) (h : decode w = .error r) :
    acceptWord w s = .next (raiseUnlessFault (rejectCode r) s) := by
  simp [acceptWord, h]

theorem acceptWord_next (w : Word) (s : State) : ∃ t, acceptWord w s = .next t := by
  unfold acceptWord
  split
  · exact exec_next _ s
  · exact ⟨_, rfl⟩

/-! ### What a step can do -/

/-- With the response port empty the next move is the first of the list. -/
@[simp] theorem nextEvent_false (e : HostEvent) (rest : List HostEvent) :
    nextEvent false (e :: rest) = some (e, rest) := by
  cases e <;> simp [nextEvent]

@[simp] theorem nextEvent_nil (busy : Bool) : nextEvent busy [] = none := rfl

/-- While a response byte is pending, no word is accepted: the next move is a take or a reset, only words stand before it, and they
stay (R236). -/
theorem nextEvent_true_cases {l : List HostEvent} {e : HostEvent} {left : List HostEvent}
    (h : nextEvent true l = some (e, left)) :
    (e = .take ∨ e = .reset) ∧ ∃ (ws : List Word) (rest : List HostEvent),
      l = ws.map .command ++ e :: rest ∧ left = ws.map .command ++ rest := by
  induction l generalizing left with
  | nil => simp at h
  | cons a l ih =>
    cases a with
    | take => simp [nextEvent] at h; exact ⟨.inl h.1.symm, [], l, by simp [h]⟩
    | reset => simp [nextEvent] at h; exact ⟨.inr h.1.symm, [], l, by simp [h]⟩
    | command w =>
      simp only [nextEvent] at h
      split at h
      · cases h
      · rename_i e' left' heq
        cases h
        obtain ⟨he, ws, rest, hl, hleft⟩ := ih heq
        exact ⟨he, w :: ws, rest, by simp [hl], by simp [hleft]⟩

/-- While a response byte is pending, nothing can happen only if nothing but words is left (R236). -/
theorem nextEvent_true_none {l : List HostEvent} : nextEvent true l = none ↔ ∃ ws : List Word, l = ws.map .command := by
  induction l with
  | nil => simp
  | cons a l ih =>
    cases a with
    | take => simp only [nextEvent]; constructor
              · intro h; cases h
              · rintro ⟨_ | _, h⟩ <;> simp at h
    | reset => simp only [nextEvent]; constructor
               · intro h; cases h
               · rintro ⟨_ | _, h⟩ <;> simp at h
    | command w =>
      simp only [nextEvent]
      constructor
      · intro h
        split at h
        · rename_i h0
          obtain ⟨ws, rfl⟩ := ih.1 h0
          exact ⟨w :: ws, rfl⟩
        · cases h
      · rintro ⟨_ | ⟨v, ws⟩, h⟩
        · simp at h
        · simp only [List.map_cons, List.cons.injEq] at h
          rw [ih.2 ⟨ws, h.2⟩]

/-- Everything a step can do. -/
theorem step_cases {s t : State} (h : step s = .next t) :
    (nextEvent s.RSP.isSome s.host = none ∧ t = s) ∨
    (∃ w rest, s.RSP = none ∧ s.host = .command w :: rest ∧ acceptWord w (s.withHost rest) = .next t) ∨
    (∃ rest, nextEvent s.RSP.isSome s.host = some (.take, rest) ∧ t = takeResponse (s.withHost rest)) ∨
    (∃ rest, nextEvent s.RSP.isSome s.host = some (.reset, rest) ∧ t = hardwareReset (s.withHost rest)) := by
  unfold step stepPort at h
  split at h
  · rename_i h0; cases h; exact .inl ⟨h0, rfl⟩
  · rename_i e rest heq
    cases e with
    | take => simp only [runEvent] at h; cases h; exact .inr (.inr (.inl ⟨rest, heq, rfl⟩))
    | reset => simp only [runEvent] at h; cases h; exact .inr (.inr (.inr ⟨rest, heq, rfl⟩))
    | command w =>
      have hr : s.RSP = none := by
        cases hr : s.RSP with
        | none => rfl
        | some b =>
          rw [hr] at heq
          have := (nextEvent_true_cases heq).1
          simp at this
      rw [hr] at heq
      cases hh : s.host with
      | nil => simp [hh] at heq
      | cons a l =>
        rw [hh] at heq
        simp at heq
        exact .inr (.inl ⟨w, rest, hr, by simp [heq], h⟩)

/-- A step on a word, with the response port empty (R13, R51). -/
theorem step_command {s : State} {w : Word} {rest : List HostEvent} (hr : s.RSP = none)
    (hh : s.host = .command w :: rest) : step s = acceptWord w (s.withHost rest) := by
  simp [step, stepPort, hr, hh, runEvent]

/-- A step on a take at the head of the list, whatever the response port holds. -/
theorem step_take {s : State} {rest : List HostEvent} (hh : s.host = .take :: rest) :
    step s = .next (takeResponse (s.withHost rest)) := by
  simp [step, stepPort, hh, nextEvent, runEvent]

/-- A step on a reset at the head of the list, whatever the response port holds (R231). -/
theorem step_reset {s : State} {rest : List HostEvent} (hh : s.host = .reset :: rest) :
    step s = .next (hardwareReset (s.withHost rest)) := by
  simp [step, stepPort, hh, nextEvent, runEvent]

/-- The block never stops: every step answers a next state (R239). -/
theorem step_next (s : State) : ∃ t, step s = .next t := by
  unfold step stepPort
  split
  · exact ⟨_, rfl⟩
  · rename_i e rest _
    cases e with
    | command w => exact acceptWord_next w _
    | take => exact ⟨_, rfl⟩
    | reset => exact ⟨_, rfl⟩

end Sys2Proof.Machine
end

