-- ==== Sys2Proof/Laws/KeySchedule.lean ====
section
/-! SUPPORT. Laws/KeySchedule.lean: the guarded key read, and what the key schedule depends on. -/

namespace Sys2Proof.Machine

@[simp] theorem startCipher_S (t : Table) : (startCipher t).S = t := rfl
@[simp] theorem startCipher_X (t : Table) : (startCipher t).X = 0xFF#8 := rfl
@[simp] theorem startCipher_Y (t : Table) : (startCipher t).Y = 0xFF#8 := rfl

/-- keyread below KLEN (R53). -/
theorem keyread_lt (keymem : Table) {klen : Fin 257} {p : Nat} (h : p < klen.val) :
    keyread keymem klen p = keymem[p]'(by omega) := by simp [keyread, h]

/-- keyread from KLEN on: zero (R53). -/
theorem keyread_ge (keymem : Table) {klen : Fin 257} {p : Nat} (h : klen.val ≤ p) : keyread keymem klen p = 0 := by
  simp [keyread, Nat.not_lt.2 h]

/-- keyread sees only the key bytes below KLEN (R36, R53). -/
theorem keyread_congr {keymem keymem' : Table} {klen : Fin 257}
    (h : ∀ p : Nat, p < klen.val → keymem[p]? = keymem'[p]?) (p : Nat) :
    keyread keymem klen p = keyread keymem' klen p := by
  by_cases hp : p < klen.val
  · rw [keyread_lt keymem hp, keyread_lt keymem' hp]
    have hq : p < 256 := by omega
    have := h p hp
    rw [Vector.getElem?_eq_getElem hq, Vector.getElem?_eq_getElem hq] at this
    exact Option.some.inj this
  · rw [keyread_ge keymem (Nat.not_lt.1 hp), keyread_ge keymem' (Nat.not_lt.1 hp)]

/-- The rounds below n see only the expanded key bytes below n (R93, R94). -/
theorem ksaRounds_congr {kx kx' : Nat → Byte} (n : Nat) (h : ∀ i, i < n → kx i = kx' i) :
    ksaRounds kx n = ksaRounds kx' n := by
  induction n with
  | zero => rfl
  | succ n ih => rw [ksaRounds, ksaRounds, ih fun i hi => h i (by omega), h n (by omega)]

/-- The schedule sees keyx(0) .. keyx(254) only (R94). -/
theorem schedule_congr {kx kx' : Nat → Byte} (h : ∀ i, i < 255 → kx i = kx' i) : schedule kx = schedule kx' := by
  unfold schedule
  rw [ksaRounds_congr 255 h]

/-- START's table sees only the key bytes below KLEN (R104). -/
theorem ksaHw_congr {keymem keymem' : Table} {klen : Fin 257}
    (h : ∀ p : Nat, p < klen.val → keymem[p]? = keymem'[p]?) : ksaHw keymem klen = ksaHw keymem' klen :=
  schedule_congr fun i _ => keyread_congr h (i % klen.val + 1)

/-- The value-level key expansion, read off the key as a list (R90). -/
theorem keyxOfKey_eq_getD (K : List Byte) (i : Nat) : keyxOfKey K i = K.getD (i % K.length + 1) 0 := by
  unfold keyxOfKey
  split <;> simp_all

/-- In hardware K[p] = KEYMEM[p] and L = KLEN (R90, R102). -/
theorem keyx_eq_keyxOfKey (keymem : Table) (klen : Fin 257) (i : Nat) :
    keyx keymem klen i = keyxOfKey (keymem.toList.take klen.val) i := by
  have hl : (keymem.toList.take klen.val).length = klen.val := by simp; omega
  rw [keyxOfKey_eq_getD, hl]
  unfold keyx
  by_cases h : i % klen.val + 1 < klen.val
  · rw [keyread_lt keymem h, List.getD_eq_getElem _ _ (by omega)]
    simp
  · rw [keyread_ge keymem (Nat.not_lt.1 h), List.getD_eq_default _ _ (by omega)]

/-- The table START builds is ksa of the key bytes loaded (R102). -/
theorem ksaHw_eq_ksa (keymem : Table) (klen : Fin 257) : ksaHw keymem klen = ksa (keymem.toList.take klen.val) :=
  schedule_congr fun i _ => keyx_eq_keyxOfKey keymem klen i

end Sys2Proof.Machine
end

