-- ==== Sys2Proof/Laws/PerInstr.lean ====
section
/-! SUPPORT. Laws/PerInstr.lean: for each command, its encoding selects its own row of the opcode map (spec/30_encoding.md rule
R73): the family RowMatch, one lemma per constructor of Instr. -/

namespace Sys2Proof.Laws

/-- `mask` of the command's row (R73). -/
def rowMask : Instr → Word
  | .nop => 0xFFFF#16
  | .kclr => 0xFFFF#16
  | .kpush _ => 0xFF00#16
  | .start => 0xFFFF#16
  | .data _ => 0xFF00#16
  | .finish => 0xFFFF#16
  | .rdst _ => 0xFFFE#16
  | .rst => 0xFFFF#16

/-- `match` of the command's row (R73). -/
def rowValue : Instr → Word
  | .nop => 0x0000#16
  | .kclr => 0x0100#16
  | .kpush _ => 0x0200#16
  | .start => 0x0300#16
  | .data _ => 0x0400#16
  | .finish => 0x0500#16
  | .rdst _ => 0x0600#16
  | .rst => 0x0700#16

/-- `(w & mask) = match` for the word of a well-formed command. -/
def RowMatch.Statement (i : Instr) : Prop := i.wellFormed = true → encode i &&& rowMask i = rowValue i

theorem RowMatch.nop : RowMatch.Statement .nop := fun _ => by decide
theorem RowMatch.kclr : RowMatch.Statement .kclr := fun _ => by decide
theorem RowMatch.kpush (imm8 : Byte) : RowMatch.Statement (.kpush imm8) := fun _ => by
  revert imm8; decide +kernel
theorem RowMatch.start : RowMatch.Statement .start := fun _ => by decide
theorem RowMatch.data (imm8 : Byte) : RowMatch.Statement (.data imm8) := fun _ => by
  revert imm8; decide +kernel
theorem RowMatch.finish : RowMatch.Statement .finish := fun _ => by decide
theorem RowMatch.rdst (sel : Byte) : RowMatch.Statement (.rdst sel) := by
  unfold RowMatch.Statement
  revert sel
  decide +kernel
theorem RowMatch.rst : RowMatch.Statement .rst := fun _ => by decide

end Sys2Proof.Laws
end

