-- ==== Sys2Proof/Laws/Run.lean ====
section
/-! SUPPORT. Laws/Run.lean: runs of several steps. -/

namespace Sys2Proof.Machine

@[simp] theorem run_zero (s : State) : Host.Core.run core 0 s = .next s := rfl

/-- A run that begins with a step to `t` goes on from `t`. -/
theorem run_succ {s t : State} (n : Nat) (h : step s = .next t) :
    Host.Core.run core (n + 1) s = Host.Core.run core n t := by
  have hc : core.step s = .next t := h
  simp only [Host.Core.run, hc]

/-- A run of `m + n` steps is a run of `m` steps and then one of `n` steps. -/
theorem run_add {s t : State} (m n : Nat) (h : Host.Core.run core m s = .next t) :
    Host.Core.run core (m + n) s = Host.Core.run core n t := by
  induction m generalizing s with
  | zero => cases h; simp
  | succ m ih =>
    obtain ⟨u, hu⟩ := step_next s
    rw [run_succ m hu] at h
    rw [Nat.succ_add, run_succ (m + n) hu, ih h]

/-- Every run answers a next state (R239). -/
theorem run_next (n : Nat) (s : State) : ∃ t, Host.Core.run core n s = .next t := by
  induction n generalizing s with
  | zero => exact ⟨s, rfl⟩
  | succ n ih =>
    obtain ⟨u, hu⟩ := step_next s
    rw [run_succ n hu]
    exact ih u

/-- A state that a step does not change stays as it is for ever. -/
theorem run_stay {s : State} (h : step s = .next s) (n : Nat) : Host.Core.run core n s = .next s := by
  induction n with
  | zero => rfl
  | succ n ih => rw [run_succ n h, ih]

end Sys2Proof.Machine
end

