-- ==== Sys2Proof/Tests/Slice0.lean ====
section
/-! SUPPORT. Tests/Slice0.lean: the model's own tests, their expected values taken from the spec's tables and worked examples, and for
each obligation with hypotheses a concrete state and operands that meet them. -/

namespace Sys2Proof.Tests

open Sys2Proof.Machine Sys2Proof.Spec

/-! ### Small states -/

/-- A state with an identity table, X = Y = 0xFF and a zero key memory. -/
def sample (phase : Phase) (err : ErrCode) (klen : Fin 257) (rsp : Option Byte) (host : List HostEvent) : State where
  S := identityTable
  X := 0xFF
  Y := 0xFF
  KEYMEM := Vector.replicate 256 0
  KLEN := klen
  PHASE := phase
  ERRCODE := err
  RSP := rsp
  host := host
  received := []
  resets := 1

def idle7 : State := sample .idle .none 7 none []
def run7 : State := sample .run .none 7 none []
def fault7 : State := sample .fault .phaseViolation 7 none []

/-- The small items of an outcome: PHASE, ERRCODE, KLEN, the response port. -/
def view : Host.Outcome State Fault Refusal → Option (Phase × ErrCode × Nat × Option Byte)
  | .next s => some (s.PHASE, s.ERRCODE, s.KLEN.val, s.RSP)
  | .fault _ => none
  | .refused _ => none

/-- The state of an outcome, or the one given. -/
def after (s : State) : Host.Outcome State Fault Refusal → State
  | .next t => t
  | .fault _ => s
  | .refused _ => s

/-! ### WellFormed: the check refuses the ill-formed (R72) -/

theorem test_rdst_2_ill_formed : (Instr.rdst 2).wellFormed = false := by decide
theorem test_rdst_255_ill_formed : (Instr.rdst 255).wellFormed = false := by decide
theorem test_rdst_1_well_formed : (Instr.rdst 1).wellFormed = true := by decide

/-! ### Decoding: words written bit by bit from R73 and V14 -/

theorem test_decode_nop : decode 0b0000000000000000#16 = .ok .nop := by decide
theorem test_decode_kclr : decode 0b0000000100000000#16 = .ok .kclr := by decide
theorem test_decode_kpush : decode 0b0000001001100001#16 = .ok (.kpush 0x61) := by decide
theorem test_decode_start : decode 0b0000001100000000#16 = .ok .start := by decide
theorem test_decode_data : decode 0b0000010001101000#16 = .ok (.data 0x68) := by decide
theorem test_decode_finish : decode 0b0000010100000000#16 = .ok .finish := by decide
theorem test_decode_rdst : decode 0b0000011000000001#16 = .ok (.rdst 1) := by decide
theorem test_decode_rst : decode 0b0000011100000000#16 = .ok .rst := by decide
theorem test_decode_rejects :
    [0x0001#16, 0x00FF#16, 0x0180#16, 0x0301#16, 0x0510#16, 0x0602#16, 0x06FF#16, 0x0701#16].map decode =
      List.replicate 8 (.error .reservedOperand) ∧
    [0x0800#16, 0x08FF#16, 0x8000#16, 0xFFFF#16].map decode = List.replicate 4 (.error .reservedOpcode) := by decide

/-! ### One step of each command -/

theorem test_nop_in_fault : view (exec .nop fault7) = some (.fault, .phaseViolation, 7, none) := by decide
theorem test_kclr_idle : view (exec .kclr idle7) = some (.idle, .none, 0, none) := by decide
theorem test_kclr_run : view (exec .kclr run7) = some (.fault, .phaseViolation, 7, none) := by decide
/-- V14: in IDLE with KLEN = 7, the word 0x02FF writes KEYMEM[7] and gives KLEN = 8. -/
theorem test_kpush_idle :
    view (exec (.kpush 0xFF) idle7) = some (.idle, .none, 8, none) ∧
      (after idle7 (exec (.kpush 0xFF) idle7)).KEYMEM[7] = 0xFF := by decide +kernel
/-- P6: the 257th KPUSH is dropped. -/
theorem test_kpush_full : view (exec (.kpush 3) (sample .idle .none 256 none [])) = some (.idle, .none, 256, none) := by
  decide
theorem test_start_opens :
    view (exec .start idle7) = some (.run, .none, 7, none) ∧ (after idle7 (exec .start idle7)).X = 0xFF := by decide
theorem test_start_no_key : view (exec .start (sample .idle .none 0 none [])) = some (.fault, .badKeylen, 0, none) := by
  decide
/-- V7: S[0] = 128, S[127] = 195, S[67] = 0x8E; DATA 0x68 answers 0xE6, and X = 0, Y = 127. -/
theorem test_data_v7 :
    let s := { run7 with S := tableSet (tableSet (tableSet identityTable 0 128) 127 195) 67 0x8E }
    let t := after s (exec (.data 0x68) s)
    t.RSP = some 0xE6 ∧ t.X = 0 ∧ t.Y = 127 ∧ tableGet t.S 0 = 195 ∧ tableGet t.S 127 = 128 := by decide +kernel
/-- R121 (c): S[0] = 0 at the first byte gives Y = 255, the swap of S[0] and S[255], and ks = S[(S[0] + S[255]) mod 256]. -/
theorem test_data_s0_zero :
    let t := after run7 (exec (.data 0x68) run7)
    t.Y = 255 ∧ tableGet t.S 0 = 255 ∧ t.RSP = some 0x68 := by decide +kernel
theorem test_data_idle : view (exec (.data 0x68) idle7) = some (.fault, .phaseViolation, 7, none) := by decide
theorem test_finish_run : view (exec .finish run7) = some (.idle, .none, 7, none) := by decide
/-- V15. -/
theorem test_rdst_status :
    view (exec (.rdst 0) (sample .run .none 256 none [])) = some (.run, .none, 256, some 0x21) ∧
    view (exec (.rdst 0) (sample .fault .phaseViolation 256 none [])) =
      some (.fault, .phaseViolation, 256, some 0x2E) := by decide
theorem test_rdst_klen :
    view (exec (.rdst 1) (sample .idle .none 256 none [])) = some (.idle, .none, 256, some 0x00) ∧
    view (exec (.rdst 1) idle7) = some (.idle, .none, 7, some 0x07) := by decide
theorem test_rst_fault : view (exec .rst fault7) = some (.idle, .none, 0, none) := by decide

/-! ### One step at the ports -/

/-- V16: in FAULT, 0x0701 is refused; 0x08FF is ILLEGAL_OPCODE, never RESERVED_OPERAND. -/
theorem test_step_rejected_words :
    view (step (fault7.withFetchWord 16 0x0701)) = some (.fault, .phaseViolation, 7, none) ∧
    view (step (idle7.withFetchWord 16 0x08FF)) = some (.fault, .illegalOpcode, 7, none) := by decide
/-- R236: a presented word waits while a byte is pending; the host's take behind it comes first. -/
theorem test_step_pending :
    let s := sample .idle .none 7 (some 5) [.command 0x0700, .take]
    (after s (step s)).host = [.command 0x0700] ∧ (after s (step s)).received = [5] ∧ (after s (step s)).RSP = none := by
  decide
/-- R231: a reset withdraws the pending byte. -/
theorem test_step_reset :
    let s := sample .run .none 7 (some 5) [.command 0x0700, .reset]
    view (step s) = some (.idle, .none, 0, none) ∧ (after s (step s)).received = [] := by decide
/-- R139: every row's word runs as the first after reset. -/
theorem test_step_first_after_reset :
    view (step (State.reset.withFetchWord 16 0x0300)) = some (.fault, .badKeylen, 0, none) ∧
    view (step (State.reset.withFetchWord 16 0x0261)) = some (.idle, .none, 1, none) ∧
    view (step (State.reset.withFetchWord 16 0x0601)) = some (.idle, .none, 0, some 0#8) := ⟨rfl, rfl, rfl⟩

/-! ### The algorithm -/

/-- The key `abc_123` (R106). -/
def keyAbc123 : List Byte := [0x61, 0x62, 0x63, 0x5F, 0x31, 0x32, 0x33]

/-- R106: keyx(5), keyx(6), keyx(7), and the last row of the table: J = 56, S[7] = 56, S[56] = 7. -/
theorem test_rounds_r106 :
    (keyxOfKey keyAbc123 5, keyxOfKey keyAbc123 6, keyxOfKey keyAbc123 7) = (51, 0, 98) ∧
    (ksaRounds (keyxOfKey keyAbc123) 8).2 = 56 ∧ tableGet (ksaRounds (keyxOfKey keyAbc123) 8).1 7 = 56 ∧
    tableGet (ksaRounds (keyxOfKey keyAbc123) 8).1 56 = 7 := by decide +kernel
/-- V1: the concrete vector, `hello` under `abc_123`. -/
theorem test_transform_v1 :
    transform keyAbc123 [0x68, 0x65, 0x6C, 0x6C, 0x6F] = some [0xE6, 0x5B, 0xA3, 0x03, 0x0A] := by decide +kernel

/-! ### The host software (V17, L1.2) -/

theorem test_base64_hi : frame .base64 false [0xE6, 0x57] = ['5', 'l', 'c', '='] := by decide
theorem test_base64_swap_translated :
    frame .base64 true [0xFD, 0x49, 0xAE, 0x1F] = ['_', 'U', 'm', 'u', 'H', 'w'] ∧
    unframe .base64 true ['_', 'U', 'm', 'u', 'H', 'w'] = .ok [0xFD, 0x49, 0xAE, 0x1F] := by decide +kernel
/-- R179: unpadded input is accepted without the flag too; R181: a wrong alphabet is an error. -/
theorem test_base64_unpadded_and_malformed :
    unframe .base64 false ['5', 'l', 'c'] = .ok [0xE6, 0x57] ∧
    unframe .base64 false ['5', 'l', '!', '='] = .error .malformedText := by decide +kernel
theorem test_hex_hello : frame .hex false [0xE6, 0x5B, 0xA3] = ['e', '6', '5', 'b', 'a', '3'] := by decide
theorem test_key_validation :
    keyValid [0x61, 0x62, 0x63, 0x5F, 0x31, 0x32] = true ∧ keyValid [0x61, 0x62, 0x63, 0x64, 0x65, 0x66] = false := by decide

/-- R181, R183: a rejected key and a malformed text send no command; a key goes out as KCLR and its KPUSH words. -/
theorem test_driver :
    constructMoves [0x61, 0x62, 0x63, 0x64, 0x65, 0x66] .base64 0 = [] ∧
    decodeMoves { key := keyAbc123, mode := .hex } ['e', '6', '5'] = [] ∧
    constructMoves [0x61, 0x62, 0x63, 0x5F, 0x31, 0x32] .base64 0 =
      [0x0100#16, 0x0261#16, 0x0262#16, 0x0263#16, 0x025F#16, 0x0231#16, 0x0232#16].map .command ∧
    decodeMoves { key := keyAbc123, mode := .hex } ['e', '6'] =
      [.command 0x0300, .command 0x04E6, .take, .command 0x0500] := by decide

/-! ### Witnesses: the hypotheses of each obligation are met together -/

theorem witness_DecoderFollowsMatchAndMask :
    0x0000#16 &&& 0xFFFF#16 = 0x0000#16 ∧ 0x0100#16 &&& 0xFFFF#16 = 0x0100#16 ∧ 0x02FF#16 &&& 0xFF00#16 = 0x0200#16 ∧
    0x0300#16 &&& 0xFFFF#16 = 0x0300#16 ∧ 0x04FF#16 &&& 0xFF00#16 = 0x0400#16 ∧ 0x0500#16 &&& 0xFFFF#16 = 0x0500#16 ∧
    0x0601#16 &&& 0xFFFE#16 = 0x0600#16 ∧ 0x0700#16 &&& 0xFFFF#16 = 0x0700#16 ∧
    (0x0602#16 &&& 0xFFFF#16 ≠ 0x0000#16 ∧ 0x0602#16 &&& 0xFFFF#16 ≠ 0x0100#16 ∧ 0x0602#16 &&& 0xFF00#16 ≠ 0x0200#16 ∧
      0x0602#16 &&& 0xFFFF#16 ≠ 0x0300#16 ∧ 0x0602#16 &&& 0xFF00#16 ≠ 0x0400#16 ∧ 0x0602#16 &&& 0xFFFF#16 ≠ 0x0500#16 ∧
      0x0602#16 &&& 0xFFFE#16 ≠ 0x0600#16 ∧ 0x0602#16 &&& 0xFFFF#16 ≠ 0x0700#16) := by decide
theorem witness_DecodeOfEncode : (Instr.rdst 1).wellFormed = true := by decide
theorem witness_EncodeOfDecode : decode 0x0601#16 = .ok (.rdst 1) := by decide
theorem witness_DecodingIsTotalInThreeClasses :
    8 ≤ (0x0800#16 : Word).toNat / 256 ∧
    ((0x07FF#16 : Word).toNat / 256 < 8 ∧ ¬ legalLow ((0x07FF#16 : Word).toNat / 256) ((0x07FF#16 : Word).toNat % 256)) ∧
    legalLow ((0x0601#16 : Word).toNat / 256) ((0x0601#16 : Word).toNat % 256) := by
  simp [legalLow]
theorem witness_StepRunsDecodedCommand :
    Presents (sample .run .none 7 none [.command 0x04FF]) 0x04FF [] ∧ decode 0x04FF#16 = .ok (.data 0xFF) :=
  ⟨⟨rfl, rfl⟩, by decide⟩
theorem witness_FetchedTableWordRuns : decodeTableWord 16 0x0601 = some (.rdst 1) := by decide
theorem witness_ReservedOpcodesFault :
    8 ≤ (0x0800#16 : Word).toNat / 256 ∧ Presents (sample .run .none 7 none [.command 0x0800]) 0x0800 [] ∧
    (sample .run .none 7 none [.command 0x0800]).PHASE ≠ .fault ∧
    Presents (sample .fault .badKeylen 0 none [.command 0x0800]) 0x0800 [] ∧
    (sample .fault .badKeylen 0 none [.command 0x0800]).PHASE = .fault :=
  ⟨by decide, ⟨rfl, rfl⟩, by decide, ⟨rfl, rfl⟩, rfl⟩
theorem witness_ReservedOperandsFault :
    ((0x0602#16 : Word).toNat / 256 < 8 ∧ ¬ legalLow ((0x0602#16 : Word).toNat / 256) ((0x0602#16 : Word).toNat % 256)) ∧
    Presents (sample .idle .none 0 none [.command 0x0602]) 0x0602 [] ∧ (sample .idle .none 0 none []).PHASE ≠ .fault ∧
    Presents (sample .fault .badKeylen 0 none [.command 0x0701]) 0x0701 [] ∧ fault7.PHASE = .fault :=
  ⟨by simp [legalLow], ⟨rfl, rfl⟩, by decide, ⟨rfl, rfl⟩, rfl⟩
theorem witness_WaitsWithoutMoves : run7.host = [] := rfl
theorem witness_HostTakesResponse :
    (sample .run .none 7 (some 9) [.take]).host = .take :: [] ∧ (sample .run .none 7 (some 9) [.take]).RSP = some 9 ∧
    (sample .run .none 7 none [.take]).host = .take :: [] ∧ (sample .run .none 7 none [.take]).RSP = none := by decide
theorem witness_PendingResponseBlocksCommands :
    (∃ t, (sample .run .none 7 (some 9) [.command 0x0400, .take]).RSP = some 9 ∧
      step (sample .run .none 7 (some 9) [.command 0x0400, .take]) = .next t) ∧
    (∃ t, (sample .run .none 7 (some 9) [.command 0x0400, .reset]).RSP = some 9 ∧
      step (sample .run .none 7 (some 9) [.command 0x0400, .reset]) = .next t) ∧
    (sample .run .none 7 (some 9) [.command 0x0400]).RSP = some 9 ∧
    (sample .run .none 7 (some 9) [.command 0x0400]).host = [0x0400#16].map .command :=
  ⟨⟨_, rfl, rfl⟩, ⟨_, rfl, rfl⟩, rfl, rfl⟩
theorem witness_HardwareResetGivesResetState : (sample .fault .badKeylen 0 (some 9) [.reset]).host = .reset :: [] := rfl
theorem witness_SoftResetLooksLikeHardwareReset : fault7.RSP = none := rfl
/-- An open invocation meets the invariant. -/
theorem run7_inv : Inv run7 where
  errcode_iff_fault := by decide
  run_has_key := by decide
  run_permutation := fun _ => identityTable_isPermutation
  badKeylen_no_key := by decide
/-- So does the state of a BAD_KEYLEN fault. -/
theorem badKeylen_inv : Inv (sample .fault .badKeylen 0 none [.command 0x0700]) where
  errcode_iff_fault := by decide
  run_has_key := by decide
  run_permutation := fun h => by cases h
  badKeylen_no_key := by decide
theorem witness_StepKeepsInvariant :
    (∃ t, Inv run7 ∧ step run7 = .next t) ∧
    ∃ t, Inv (sample .fault .badKeylen 0 none [.command 0x0700]) ∧
      step (sample .fault .badKeylen 0 none [.command 0x0700]) = .next t ∧ t.PHASE = .idle :=
  ⟨⟨_, run7_inv, rfl⟩, _, badKeylen_inv, rfl, rfl⟩
/-- A state with a zero table, X = 3, Y = 4 and a key memory of ones. -/
def otherBits (s : State) : State :=
  { s with X := 3, Y := 4, S := Vector.replicate 256 0, KEYMEM := Vector.replicate 256 1 }
/-- Two states that differ in S, X, Y and the key bytes from KLEN on. -/
theorem witness_StepKeepsHostUnableToTell :
    SameToHost (sample .idle .none 0 none [.command 0x0261]) (otherBits (sample .idle .none 0 none [.command 0x0261])) where
  phase := rfl
  errcode := rfl
  klen := rfl
  key := fun p _ h => absurd h (Nat.not_lt_zero p)
  cipher := fun h => by cases h
  rsp := rfl
  host := rfl
  received := rfl
theorem witness_CheckOrderOfEveryWord :
    fault7.PHASE = .fault ∧ ((0x0701#16 : Word) ≠ 0x0000#16 ∧ (0x0701#16 : Word) ≠ 0x0600#16 ∧
      (0x0701#16 : Word) ≠ 0x0601#16 ∧ (0x0701#16 : Word) ≠ 0x0700#16) ∧
    run7.PHASE ≠ .fault ∧ faultOf 0x0300 run7 .phaseViolation ∧ faultOf 0x0400 run7 .none := by
  refine ⟨rfl, by decide, by decide, ?_, ?_⟩ <;> simp [faultOf, legalLow, wrongPhase, run7, sample]
theorem witness_FirstCauseIsReported :
    run7.PHASE ≠ .fault ∧ 8 ≤ (0xFFFF#16 : Word).toNat / 256 ∧ run7.PHASE = .run ∧ Inv run7 ∧ (1#8 : Byte) ≠ 0#8 ∧
    faultOf 0xFFFF run7 .illegalOpcode ∧ faultOf 0x0301 run7 .reservedOperand ∧ faultOf 0x0300 run7 .phaseViolation ∧
    faultOf 0x0300 (sample .idle .none 0 none []) .badKeylen ∧ faultOf 0x0300 (sample .idle .none 1 none []) .none := by
  refine ⟨by decide, by decide, rfl, run7_inv, by decide, ?_, ?_, ?_, ?_, ?_⟩ <;>
    simp [faultOf, legalLow, wrongPhase, run7, sample]
/-- The last clause's premises: a step from an invariant state in RUN that stays there. -/
theorem witness_FirstCauseIsReported_step : ∃ t, Inv run7 ∧ step run7 = .next t ∧ t.PHASE = .run := ⟨_, run7_inv, rfl, rfl⟩
theorem witness_FaultEntryIsPrecise :
    ∃ t, (sample .run .none 7 none [.command 0x0300]).PHASE ≠ .fault ∧
      step (sample .run .none 7 none [.command 0x0300]) = .next t ∧ t.PHASE = .fault :=
  ⟨_, by decide, rfl, rfl⟩
theorem witness_FaultPhaseIsFailStopped :
    ((0x0301#16 : Word) ≠ 0x0000#16 ∧ (0x0301#16 : Word) ≠ 0x0600#16 ∧ (0x0301#16 : Word) ≠ 0x0601#16 ∧
      (0x0301#16 : Word) ≠ 0x0700#16) ∧
    ∃ t, (sample .fault .illegalOpcode 7 none [.command 0x0301]).PHASE = .fault ∧
      step (sample .fault .illegalOpcode 7 none [.command 0x0301]) = .next t ∧ t.PHASE = .fault :=
  ⟨by decide, _, rfl, rfl, rfl⟩
theorem witness_FaultLastsUntilReset :
    (∃ t, fault7.PHASE = .fault ∧ step fault7 = .next t ∧ t.PHASE = .fault) ∧
    (∃ t, Presents (sample .fault .badKeylen 0 none [.command 0x0700]) 0x0700 [] ∧
      step (sample .fault .badKeylen 0 none [.command 0x0700]) = .next t ∧ t.PHASE ≠ .fault) ∧
    ∃ t, (sample .fault .badKeylen 0 none [.reset]).host = .reset :: [] ∧
      step (sample .fault .badKeylen 0 none [.reset]) = .next t ∧ t.PHASE ≠ .fault :=
  ⟨⟨_, rfl, rfl, rfl⟩, ⟨_, ⟨rfl, rfl⟩, rfl, by decide⟩, ⟨_, rfl, rfl, by decide⟩⟩
theorem witness_PhaseTransitionsAreTheTable :
    (∃ t, step (sample .run .none 7 none [.command 0x0500]) = .next t ∧
      t.PHASE ≠ (sample .run .none 7 none [.command 0x0500]).PHASE) ∧
    (sample .run .none 7 none [.reset]).host = .reset :: [] ∧
    (Presents (sample .idle .none 1 none [.command 0x0300]) 0x0300 [] ∧ (sample .idle .none 1 none []).PHASE = .idle ∧
      1 ≤ (sample .idle .none 1 none []).KLEN.val) ∧
    Presents (sample .run .none 7 none [.command 0x0500]) 0x0500 [] ∧
    Presents (sample .fault .badKeylen 0 none [.command 0x0700]) 0x0700 [] ∧
    (Presents (sample .idle .none 0 none [.command 0x0300]) 0x0300 [] ∧
      faultOf 0x0300 (sample .idle .none 0 none [.command 0x0300]) .badKeylen) := by
  refine ⟨⟨_, rfl, by decide⟩, rfl, ⟨⟨rfl, rfl⟩, rfl, by decide⟩, ⟨rfl, rfl⟩, ⟨rfl, rfl⟩, ⟨rfl, rfl⟩, ?_⟩
  simp [faultOf, legalLow, wrongPhase, sample]
theorem witness_OnlyStartOpensAnInvocation :
    ∃ t, (sample .idle .none 1 none [.command 0x0300]).PHASE ≠ .run ∧
      step (sample .idle .none 1 none [.command 0x0300]) = .next t ∧ t.PHASE = .run :=
  ⟨_, by decide, rfl, rfl⟩
theorem witness_KeyIsImmutableInRun :
    ∃ t, (sample .run .none 7 none [.command 0x0261]).PHASE = .run ∧
      step (sample .run .none 7 none [.command 0x0261]) = .next t := ⟨_, rfl, rfl⟩
theorem witness_OneResponsePerDataAndReadStatus :
    ∃ t, run7.RSP = none ∧ acceptWord 0x0400#16 run7 = .next t ∧ t.RSP.isSome = true := ⟨_, rfl, rfl, rfl⟩
theorem witness_NopEffect :
    (0x0001#16 : Word).toNat / 256 = 0 ∧ (0x0001#16 : Word).toNat % 256 ≠ 0 ∧ run7.PHASE ≠ .fault := by decide
theorem witness_KclrEffect :
    idle7.PHASE = .idle ∧ run7.PHASE = .run ∧ fault7.PHASE = .fault ∧
    (0x0180#16 : Word).toNat / 256 = 1 ∧ (0x0180#16 : Word).toNat % 256 ≠ 0 ∧ run7.PHASE ≠ .fault := by decide
theorem witness_KpushEffect :
    ((sample .idle .none 255 none []).PHASE = .idle ∧ (sample .idle .none 255 none []).KLEN.val < 256) ∧
    ((sample .idle .none 256 none []).PHASE = .idle ∧ (sample .idle .none 256 none []).KLEN.val = 256) ∧
    run7.PHASE = .run ∧ fault7.PHASE = .fault := by decide
theorem witness_StartEffect :
    ((sample .idle .none 1 none []).PHASE = .idle ∧ 1 ≤ (sample .idle .none 1 none []).KLEN.val) ∧
    ((sample .idle .none 0 none []).PHASE = .idle ∧ (sample .idle .none 0 none []).KLEN.val = 0) ∧
    run7.PHASE = .run ∧ fault7.PHASE = .fault ∧
    (0x0301#16 : Word).toNat / 256 = 3 ∧ (0x0301#16 : Word).toNat % 256 ≠ 0 ∧ run7.PHASE ≠ .fault := by decide
theorem witness_DataEffect : run7.PHASE = .run ∧ idle7.PHASE = .idle ∧ fault7.PHASE = .fault := by decide
/-- Two entries besides X' and Y' stay: after DATA on `run7`, X' = 0 and Y' = 255. -/
theorem witness_DataEffect_other_entries : (1 : Byte) ≠ 0 ∧ (1 : Byte) ≠ 255 := by decide
theorem witness_FinishEffect :
    run7.PHASE = .run ∧ idle7.PHASE = .idle ∧ fault7.PHASE = .fault ∧
    (0x0510#16 : Word).toNat / 256 = 5 ∧ (0x0510#16 : Word).toNat % 256 ≠ 0 ∧ idle7.PHASE ≠ .fault := by decide
theorem witness_RdstEffect :
    1 < (2 : Byte).toNat ∧ run7.PHASE ≠ .fault ∧ fault7.PHASE = .fault ∧
    (0x0602#16 : Word).toNat / 256 = 6 ∧ 1 < (0x0602#16 : Word).toNat % 256 := by decide
theorem witness_StatusFields :
    (∃ t, exec (.rdst 0#8) idle7 = .next t) ∧ (idle7.PHASE = .idle ∧ idle7.ERRCODE = .none ∧ idle7.KLEN.val = 7) ∧
    (run7.PHASE = .run ∧ run7.ERRCODE = .none ∧ run7.KLEN.val = 7) ∧
    (sample .run .none 256 none []).KLEN.val = 256 ∧
    (fault7.PHASE = .fault ∧ fault7.ERRCODE = .phaseViolation ∧ fault7.KLEN.val < 256) ∧
    (sample .fault .illegalOpcode 255 none []).KLEN.val < 256 ∧ (sample .fault .reservedOperand 255 none []).KLEN.val < 256 ∧
    (sample .fault .badKeylen 0 none []).KLEN.val < 256 := ⟨⟨_, rfl⟩, by decide⟩
theorem witness_RstEffect :
    (0x0701#16 : Word).toNat / 256 = 7 ∧ (0x0701#16 : Word).toNat % 256 ≠ 0 ∧ run7.PHASE ≠ .fault ∧ fault7.PHASE = .fault ∧
    run7.RSP = none := by decide
theorem witness_GuardedKeyRead :
    (255 ≤ 256 ∧ 255 < (256 : Fin 257).val) ∧ (256 ≤ 256 ∧ (256 : Fin 257).val ≤ 256) ∧
    (1 ≤ (255 : Fin 257).val ∧ 254 ≤ 254 ∧ (255 : Fin 257).val ≤ 254 % 255 + 1) := by decide
/-- Round 0 with the key byte 0 and J = 0 computes J' = 0 = I; entry 1 is neither I nor J'. -/
theorem witness_KeyScheduleRound :
    (ksaRound (identityTable, 0) 0 0).2 = 0 ∧ (1 : Byte) ≠ 0 ∧ (1 : Byte) ≠ (ksaRound (identityTable, 0) 0 0).2 := by
  decide +kernel
theorem witness_StartTableMatchesPseudocode : 1 ≤ (1 : Fin 257).val ∧ 1 ≤ (256 : Fin 257).val ∧ keyAbc123 ≠ [] := by decide
theorem witness_ScheduleIsPermutation : keyAbc123 ≠ [] ∧ 1 ≤ (256 : Fin 257).val := by decide
theorem witness_FirstKeyByteIsNeverRead :
    [0x61#8, 0x62#8].length = [0x58#8, 0x62#8].length ∧
    ∀ p : Nat, 1 ≤ p → p ≤ min ([0x61#8, 0x62#8].length - 1) 255 → [0x61#8, 0x62#8][p]? = [0x58#8, 0x62#8][p]? := by
  refine ⟨rfl, fun p h₁ h₂ => ?_⟩
  have hp : p ≤ 1 := le_trans h₂ (Nat.min_le_left _ _)
  obtain rfl : p = 1 := by omega
  rfl
theorem witness_LongKeysEqualTheirFirst256Bytes :
    (256 ≤ (List.replicate 256 1#8).length ∧ 256 ≤ (List.replicate 257 1#8).length ∧
      ∀ p : Nat, 1 ≤ p → p ≤ 255 → (List.replicate 256 1#8)[p]? = (List.replicate 257 1#8)[p]?) ∧
    (List.replicate 255 1#8).length = 255 ∧ (List.replicate 256 1#8).length = 256 := by
  have len : ∀ n, (List.replicate n 1#8).length = n := fun n => List.length_replicate ..
  refine ⟨⟨(len 256).ge, by rw [len]; omega, fun p _ hp => ?_⟩, len 255, len 256⟩
  rw [List.getElem?_replicate, List.getElem?_replicate, if_pos (by omega), if_pos (by omega)]
/-- Two states with the same one-byte key that differ in X, Y, S and the rest of KEYMEM. -/
theorem witness_StartReadsOnlyTheLoadedKey :
    let s := sample .idle .none 1 none []
    let s' := { s with X := 3, Y := 4, S := Vector.replicate 256 1, KEYMEM := s.KEYMEM.set 1 7 }
    s.PHASE = .idle ∧ s'.PHASE = .idle ∧ 1 ≤ s.KLEN.val ∧ s.KLEN = s'.KLEN ∧
      ∀ p : Nat, p < s.KLEN.val → s.KEYMEM[p]? = s'.KEYMEM[p]? := by
  refine ⟨rfl, rfl, by decide, rfl, fun p hp => ?_⟩
  have h1 : (sample .idle .none 1 none []).KLEN.val = 1 := rfl
  have hp1 : p < 1 := by rw [← h1]; exact hp
  rw [Vector.getElem?_set, if_neg (by omega)]
theorem witness_KeystreamIgnoresData : run7.PHASE = .run := rfl
/-- An invocation of two DATA commands with NOP and both RDST between them, and one with no DATA command. -/
theorem witness_IndexCountsTheBytes :
    let uses : List Use := [.data 0x68, .nop, .status, .keylen, .data 0xFF]
    let s := sample .idle .none 1 none (.command 0x0300 :: (uses.flatMap useMoves ++ [.reset]))
    (s.PHASE = .idle ∧ 1 ≤ s.KLEN.val ∧ s.RSP = none ∧ s.host = .command 0x0300 :: (uses.flatMap useMoves ++ [.reset])) ∧
    uses.countP Use.isData = 2 ∧ [Use.nop].countP Use.isData = 0 ∧ 1 ≤ 257 := by decide
theorem witness_TransformIsItsOwnInverse :
    transform keyAbc123 [0x68] = some (applyKeystream (startCipher (ksa keyAbc123)) [0x68]) := rfl
theorem witness_TransformKeepsLength : transform [1#8] [] = some [] ∧ [1#8] ≠ ([] : List Byte) := ⟨rfl, by decide⟩
theorem witness_OutputByteDependsOnKeyAndItsInputByte :
    keyAbc123 ≠ [] ∧ transform keyAbc123 [0x68] = some (applyKeystream (startCipher (ksa keyAbc123)) [0x68]) :=
  ⟨by decide, rfl⟩
theorem witness_TransformIsDefinedForEveryKey :
    (sample .idle .none 0 none []).PHASE = .idle ∧ (sample .idle .none 0 none []).KLEN.val = 0 := by decide
theorem witness_KeyThenCryptComputesTransform :
    let s := sample .idle .none 7 none (keyMoves [0x61] ++ cryptMoves [0x68] ++ cryptMoves [] ++ [.reset])
    [0x61#8] ≠ ([] : List Byte) ∧ s.PHASE = .idle ∧ s.RSP = none ∧
      s.host = keyMoves [0x61] ++ cryptMoves [0x68] ++ cryptMoves [] ++ [.reset] := ⟨by decide, rfl, rfl, rfl⟩
theorem witness_KeyValidationAcceptsExactlyValidKeys :
    newCipher [0x61] .hex 0 ≠ .ok { key := [0x61], mode := .hex } := by
  simp [newCipher, keyValid]
theorem witness_EncodeThenDecodeReturnsInput : ({ key := keyAbc123, mode := .base64 } : Cipher).key ≠ [] := by decide
theorem witness_HexTextIsLowercasePairs :
    [0xAB#8][0]? = some 0xAB#8 ∧ ['a'].length % 2 = 1 ∧ 'g' ∈ ['a', 'g'] ∧
    'g' ∉ ['0', '1', '2', '3', '4', '5', '6', '7', '8', '9', 'a', 'b', 'c', 'd', 'e', 'f', 'A', 'B', 'C', 'D', 'E', 'F'] := by
  decide
theorem witness_InvalidBase64CharactersAreDecodeErrors :
    ({ key := keyAbc123, mode := .base64 } : Cipher).mode = .base64 ∧ '!' ∈ ['5', '!'] ∧
    ¬ (48 ≤ '!'.toNat ∧ '!'.toNat ≤ 57) ∧ ¬ (65 ≤ '!'.toNat ∧ '!'.toNat ≤ 90) ∧ ¬ (97 ≤ '!'.toNat ∧ '!'.toNat ≤ 122) ∧
    '!' ∉ ['+', '/', '-', '_', '=', ' ', '\t', '\n', '\r'] := by decide
theorem witness_ModesGiveDifferentTexts : [0xE6#8] ≠ ([] : List Byte) := by decide

end Sys2Proof.Tests
end

section
/-! PROOFS of the family 00_scope: a step on a word that decodes is the decoded command. -/

namespace Sys2Proof.Machine

/-- The decoder answers no command whose operand R72 does not allow. -/
theorem wellFormed_of_decode_ok {w : Word} {i : Instr} (h : decode w = .ok i) : i.wellFormed = true := by
  have hrow := decode_cases (opcodeOf w) (lowByteOf w)
  rw [wordOf_fields, h] at hrow
  cases i with
  | rdst sel =>
    -- the only command with a check: its operand is the low byte, which that row bounds by 1
    have hsel : (lowByteOf w).toNat ≤ 1 ∧ sel = lowByteOf w := by simp_all
    simp [Instr.wellFormed, hsel]
  | nop | kclr | kpush _ | start | data _ | finish | rst => rfl

/-- A table word that decodes is a command word that decodes (R81). -/
theorem decode_tableWord_of_decodeTableWord {nbits w : Nat} {i : Instr} (h : decodeTableWord nbits w = some i) :
    decode (tableWord nbits w) = .ok i := by
  unfold decodeTableWord at h
  split at h
  · split at h
    · rename_i j hj
      rw [hj, Option.some.inj h]
    · cases h
  · cases h

/-- A step on a word that decodes, with the response port empty, is the command it decodes to (R13, R51). -/
theorem step_command_ok {s : State} {w : Word} {rest : List HostEvent} {i : Instr} (hr : s.RSP = none)
    (hh : s.host = .command w :: rest) (hd : decode w = .ok i) : step s = exec i (s.withHost rest) :=
  (step_command hr hh).trans (acceptWord_ok _ hd)

/-- Taking the presented word off the host's list again leaves `s` with the response port empty. -/
theorem presentWord_withHost (w : Word) (s : State) :
    (presentWord w s).withHost s.host = { s with RSP := none } := rfl

/-- Settles O6: the step accepts the word and runs its command, and the decoder answers well-formed commands only. -/
theorem stepRunsDecodedCommand : Obligations.StepRunsDecodedCommand := by
  intro s w rest i ⟨hr, hh⟩ hd
  exact ⟨step_command_ok hr hh hd, wellFormed_of_decode_ok hd⟩

/-- Settles O7: presenting the word makes it the next move with the response port empty, and the step takes it off again. -/
theorem fetchedTableWordRuns : Obligations.FetchedTableWordRuns := by
  intro s nbits w i h
  have hd := decode_tableWord_of_decodeTableWord h
  calc step (s.withFetchWord nbits w)
      = exec i ((presentWord (tableWord nbits w) s).withHost s.host) :=
        step_command_ok (presentWord_RSP _ s) (presentWord_host _ s) hd
    _ = exec i { s with RSP := none } := by rw [presentWord_withHost]

end Sys2Proof.Machine
end

section
/-! PROOFS of the family 10_state: the invariant, what the host can tell apart, the key in RUN, the STATUS byte and reset.
First what each shared operation keeps, then what a command, a word and a step keep. -/

namespace Sys2Proof.Machine

/-! ### Missing field lemmas and inversions -/

section Fields
variable (s : State) (b : Byte) (code : ErrCode)

@[simp] theorem appendKey_PHASE : (appendKey b s).PHASE = s.PHASE := by
  unfold appendKey; split <;> rfl
@[simp] theorem appendKey_ERRCODE : (appendKey b s).ERRCODE = s.ERRCODE := by
  unfold appendKey; split <;> rfl
@[simp] theorem takeResponse_S : (takeResponse s).S = s.S := by
  unfold takeResponse; split <;> rfl
@[simp] theorem takeResponse_KEYMEM : (takeResponse s).KEYMEM = s.KEYMEM := by
  unfold takeResponse; split <;> rfl
@[simp] theorem takeResponse_KLEN : (takeResponse s).KLEN = s.KLEN := by
  unfold takeResponse; split <;> rfl
@[simp] theorem takeResponse_PHASE : (takeResponse s).PHASE = s.PHASE := by
  unfold takeResponse; split <;> rfl
@[simp] theorem takeResponse_ERRCODE : (takeResponse s).ERRCODE = s.ERRCODE := by
  unfold takeResponse; split <;> rfl
@[simp] theorem raiseUnlessFault_KEYMEM : (raiseUnlessFault code s).KEYMEM = s.KEYMEM := by
  unfold raiseUnlessFault; split <;> rfl
@[simp] theorem raiseUnlessFault_KLEN : (raiseUnlessFault code s).KLEN = s.KLEN := by
  unfold raiseUnlessFault; split <;> rfl

end Fields

/-- A rejected word has a code of its own: ILLEGAL_OPCODE or RESERVED_OPERAND (R201). -/
theorem rejectCode_ne_none (r : Reject) : rejectCode r ≠ .none := by cases r <;> decide

theorem rejectCode_ne_badKeylen (r : Reject) : rejectCode r ≠ .badKeylen := by cases r <;> decide

/-- A command has one word: the one its row of R73 gives it. -/
theorem encode_of_decode_ok {w : Word} {i : Instr} (h : decode w = .ok i) : encode i = w := by
  have hrow := decode_cases (opcodeOf w) (lowByteOf w)
  rw [wordOf_fields, h] at hrow
  rw [← wordOf_fields w]
  -- in a row that answers a command the opcode is the row's, and the low byte is 0 or the operand
  rcases hrow with ⟨hop, hlo, hi⟩ | ⟨hop, hlo, hi⟩ | ⟨hop, hi⟩ | ⟨hop, hlo, hi⟩ | ⟨hop, hi⟩ | ⟨hop, hlo, hi⟩ |
    ⟨hop, -, hi⟩ | ⟨hop, hlo, hi⟩ | ⟨-, hi⟩ | ⟨-, -, hi⟩ | ⟨-, -, hi⟩ <;> cases hi <;> simp [encode, *]

/-- Everything an accepted word can do: its command, or the fault or refusal of a word that is none (R74). -/
theorem acceptWord_cases {w : Word} {s t : State} (h : acceptWord w s = .next t) :
    (∃ i, decode w = .ok i ∧ exec i s = .next t) ∨
      ∃ r, decode w = .error r ∧ t = raiseUnlessFault (rejectCode r) s := by
  cases hd : decode w with
  | ok i => exact .inl ⟨i, rfl, acceptWord_ok s hd ▸ h⟩
  | error r =>
    rw [acceptWord_error s hd] at h
    exact .inr ⟨r, rfl, (Host.Outcome.next.inj h).symm⟩

/-- Where no move can happen, the step is a wait (R214, R236). -/
theorem step_wait {s : State} (h : nextEvent s.RSP.isSome s.host = none) : step s = .next s := by
  simp [step, stepPort, h]

/-- Where a move can happen, the step is that move on the state with the other moves left. -/
theorem step_event {s : State} {e : HostEvent} {rest : List HostEvent}
    (h : nextEvent s.RSP.isSome s.host = some (e, rest)) : step s = runEvent e (s.withHost rest) := by
  simp [step, stepPort, h]

/-! ### The key schedule and the keystream step keep a permutation (R34) -/

/-- Every round of the key schedule swaps two entries of a permutation (R93, R97). -/
theorem ksaRounds_isPermutation (kx : Nat → Byte) (n : Nat) : IsPermutation (ksaRounds kx n).1 := by
  induction n with
  | zero => exact identityTable_isPermutation
  | succ n ih => exact tableSwap_isPermutation ih _ _

theorem schedule_isPermutation (kx : Nat → Byte) : IsPermutation (schedule kx) := by
  unfold schedule
  exact ksaRounds_isPermutation kx 255

/-- The table START builds is a permutation (R97). -/
theorem ksaHw_isPermutation (keymem : Table) (klen : Fin 257) : IsPermutation (ksaHw keymem klen) :=
  schedule_isPermutation _

/-- The keystream step swaps two entries (R113). -/
theorem prgaAdvance_isPermutation {c : CipherState} (h : IsPermutation c.S) : IsPermutation (prgaAdvance c).S :=
  tableSwap_isPermutation h _ _

/-! ### The invariant, operation by operation -/

section Invariant
variable {s t : State}

/-- In IDLE the invariant says only that no fault is recorded (R28). -/
theorem inv_of_idle (hp : s.PHASE = .idle) (he : s.ERRCODE = .none) : Inv s where
  errcode_iff_fault := by simp [hp, he]
  run_has_key := by simp [hp]
  run_permutation := by simp [hp]
  badKeylen_no_key := by simp [he]

/-- The invariant reads S, KLEN, PHASE and ERRCODE only. -/
theorem inv_of_fields_eq (h : Inv s) (hS : t.S = s.S) (hk : t.KLEN = s.KLEN) (hp : t.PHASE = s.PHASE)
    (he : t.ERRCODE = s.ERRCODE) : Inv t where
  errcode_iff_fault := by rw [he, hp]; exact h.errcode_iff_fault
  run_has_key := by rw [hp, hk]; exact h.run_has_key
  run_permutation := by rw [hp, hS]; exact h.run_permutation
  badKeylen_no_key := by rw [he, hk]; exact h.badKeylen_no_key

/-- Outside phase FAULT no fault is recorded (R28). -/
theorem Inv.errcode_eq_none (h : Inv s) (hp : s.PHASE ≠ .fault) : s.ERRCODE = .none := by
  by_contra he
  exact hp (h.errcode_iff_fault.1 he)

theorem withHost_inv (rest : List HostEvent) (h : Inv s) : Inv (s.withHost rest) :=
  inv_of_fields_eq h rfl rfl rfl rfl

theorem emit_inv (b : Byte) (h : Inv s) : Inv (emit b s) :=
  inv_of_fields_eq h rfl rfl rfl rfl

theorem takeResponse_inv (h : Inv s) : Inv (takeResponse s) :=
  inv_of_fields_eq h (takeResponse_S s) (takeResponse_KLEN s) (takeResponse_PHASE s) (takeResponse_ERRCODE s)

theorem afterReset_inv (n : Nat) (host : List HostEvent) (received : List Byte) :
    Inv (State.afterReset n host received) :=
  inv_of_idle rfl rfl

theorem softReset_inv (s : State) : Inv (softReset s) :=
  inv_of_idle rfl rfl

/-- Fault entry with a code establishes the invariant, whatever held before (R205). -/
theorem raiseFault_inv {code : ErrCode} (hc : code ≠ .none) (hk : code = .badKeylen → s.KLEN.val = 0) :
    Inv (raiseFault code s) where
  errcode_iff_fault := by simp [hc]
  run_has_key := by simp
  run_permutation := by simp
  badKeylen_no_key := by simpa using hk

theorem raiseUnlessFault_inv {code : ErrCode} (h : Inv s) (hc : code ≠ .none) (hb : code ≠ .badKeylen) :
    Inv (raiseUnlessFault code s) := by
  by_cases hp : s.PHASE = .fault
  · rwa [raiseUnlessFault_fault code hp]
  · rw [raiseUnlessFault_live code hp]
    exact raiseFault_inv hc fun hcode => absurd hcode hb

/-- START opens an invocation with a key and with a permutation in S (R97, R102, R204). -/
theorem openInvocation_inv (h : Inv s) (hp : s.PHASE = .idle) (hk : 1 ≤ s.KLEN.val) :
    Inv { s.withCipher (startCipher (ksaHw s.KEYMEM s.KLEN)) with PHASE := .run } where
  errcode_iff_fault := by simp [h.errcode_eq_none (by simp [hp])]
  run_has_key := fun _ => hk
  run_permutation := fun _ => ksaHw_isPermutation _ _
  badKeylen_no_key := h.badKeylen_no_key

/-- DATA's keystream step keeps the invariant in RUN (R34). -/
theorem advanceCipher_inv (h : Inv s) (hp : s.PHASE = .run) : Inv (s.withCipher (prgaAdvance s.cipher)) where
  errcode_iff_fault := h.errcode_iff_fault
  run_has_key := h.run_has_key
  run_permutation := fun _ => prgaAdvance_isPermutation (h.run_permutation hp)
  badKeylen_no_key := h.badKeylen_no_key

theorem exec_inv {i : Instr} (hs : Inv s) (h : exec i s = .next t) : Inv t := by
  rcases exec_cases h with ⟨-, rfl⟩ | ⟨-, rfl, -⟩ | ⟨-, rfl, -⟩ | ⟨-, rfl, -⟩ | ⟨-, hk, rfl, -⟩ | ⟨hp, rfl, -⟩ |
    ⟨hp, b, rfl, -⟩ | ⟨hp, hk, -, rfl⟩ | ⟨hp, b, -, rfl⟩ | ⟨hp, rfl, -⟩ | ⟨-, rfl⟩ | ⟨-, rfl⟩ | ⟨sel, -, -, -, rfl⟩ |
    ⟨-, rfl⟩
  · exact hs -- NOP
  · exact hs -- refused in FAULT
  · exact raiseFault_inv (by decide) (by simp) -- PHASE_VIOLATION in RUN
  · exact raiseFault_inv (by decide) (by simp) -- PHASE_VIOLATION in IDLE
  · exact raiseFault_inv (by decide) fun _ => hk -- BAD_KEYLEN
  · exact inv_of_idle hp (hs.errcode_eq_none (by simp [hp])) -- KCLR
  · exact inv_of_idle (by simpa using hp) (by simpa using hs.errcode_eq_none (by simp [hp])) -- KPUSH
  · exact openInvocation_inv hs hp hk -- START
  · exact emit_inv _ (advanceCipher_inv hs hp) -- DATA
  · exact inv_of_idle rfl (hs.errcode_eq_none hp) -- FINISH
  · exact emit_inv _ hs -- RDST 0
  · exact emit_inv _ hs -- RDST 1
  · exact raiseUnlessFault_inv hs (by decide) (by decide) -- RDST of another selector
  · exact softReset_inv s -- RST

theorem acceptWord_inv {w : Word} (hs : Inv s) (h : acceptWord w s = .next t) : Inv t := by
  obtain ⟨i, -, hi⟩ | ⟨r, -, rfl⟩ := acceptWord_cases h
  · exact exec_inv hs hi
  · exact raiseUnlessFault_inv hs (rejectCode_ne_none r) (rejectCode_ne_badKeylen r)

theorem step_inv (hs : Inv s) (h : step s = .next t) : Inv t := by
  obtain ⟨-, rfl⟩ | ⟨w, rest, -, -, hw⟩ | ⟨rest, -, rfl⟩ | ⟨rest, -, rfl⟩ := step_cases h
  · exact hs
  · exact acceptWord_inv (withHost_inv rest hs) hw
  · exact takeResponse_inv (withHost_inv rest hs)
  · exact afterReset_inv _ _ _

end Invariant

/-! ### What the host can tell apart, operation by operation -/

section HostView
variable {s t : State}

theorem withHost_sameToHost (rest : List HostEvent) (h : SameToHost s t) :
    SameToHost (s.withHost rest) (t.withHost rest) :=
  { h with host := rfl }

theorem emit_sameToHost (b : Byte) (h : SameToHost s t) : SameToHost (emit b s) (emit b t) :=
  { h with rsp := rfl }

theorem withCipher_sameToHost (c : CipherState) (h : SameToHost s t) :
    SameToHost (s.withCipher c) (t.withCipher c) :=
  { h with cipher := fun _ => rfl }

theorem raiseFault_sameToHost (code : ErrCode) (h : SameToHost s t) :
    SameToHost (raiseFault code s) (raiseFault code t) :=
  { h with phase := rfl, errcode := rfl, cipher := by simp }

theorem raiseUnlessFault_sameToHost (code : ErrCode) (h : SameToHost s t) :
    SameToHost (raiseUnlessFault code s) (raiseUnlessFault code t) := by
  by_cases hp : s.PHASE = .fault
  · rwa [raiseUnlessFault_fault code hp, raiseUnlessFault_fault code (h.phase ▸ hp)]
  · rw [raiseUnlessFault_live code hp, raiseUnlessFault_live code (h.phase ▸ hp)]
    exact raiseFault_sameToHost code h

/-- With KLEN = 0 no key byte is left to tell apart (R24). -/
theorem unloadKey_sameToHost (h : SameToHost s t) : SameToHost { s with KLEN := 0 } { t with KLEN := 0 } :=
  { h with klen := rfl, key := by simp }

/-- In IDLE no host sees S, X and Y (R35). -/
theorem toIdle_sameToHost (h : SameToHost s t) : SameToHost { s with PHASE := .idle } { t with PHASE := .idle } :=
  { h with phase := rfl, cipher := by simp }

theorem softReset_sameToHost (h : SameToHost s t) : SameToHost (softReset s) (softReset t) :=
  { unloadKey_sameToHost (toIdle_sameToHost h) with errcode := rfl }

/-- No unspecified item of a reset can be told apart (R36, U10). -/
theorem afterReset_sameToHost (m n : Nat) (host : List HostEvent) (received : List Byte) :
    SameToHost (State.afterReset m host received) (State.afterReset n host received) where
  phase := rfl
  errcode := rfl
  klen := rfl
  key := fun p _ hp => absurd hp (Nat.not_lt_zero p)
  cipher := fun hp => by cases hp
  rsp := rfl
  host := rfl
  received := rfl

theorem hardwareReset_sameToHost (h : SameToHost s t) : SameToHost (hardwareReset s) (hardwareReset t) := by
  unfold hardwareReset
  rw [h.host, h.received]
  exact afterReset_sameToHost _ _ _ _

theorem takeResponse_sameToHost (h : SameToHost s t) : SameToHost (takeResponse s) (takeResponse t) := by
  cases hr : s.RSP with
  | none => rwa [takeResponse_none hr, takeResponse_none (h.rsp ▸ hr)]
  | some b =>
    rw [takeResponse_some hr, takeResponse_some (h.rsp ▸ hr)]
    exact { h with rsp := rfl, received := by simp [h.received] }

/-- The byte KPUSH appends is the same in both, and the key bytes below it stay (R101). -/
theorem appendKey_sameToHost (b : Byte) (h : SameToHost s t) : SameToHost (appendKey b s) (appendKey b t) := by
  by_cases hs : s.KLEN.val < 256
  · have ht : t.KLEN.val < 256 := h.klen ▸ hs
    rw [appendKey_room b hs, appendKey_room b ht]
    refine { h with klen := by simp [h.klen], key := fun p hp hlt => ?_ }
    simp only [Vector.getElem?_set, h.klen]
    split_ifs with hpos
    · rfl
    · exact h.key p hp (by rw [h.klen]; simp only [h.klen] at hlt; omega)
  · rwa [appendKey_full b hs, appendKey_full b (h.klen ▸ hs)]

theorem statusByte_congr (h : SameToHost s t) : statusByte s = statusByte t := by
  simp only [statusByte, h.klen, h.errcode, h.phase]

theorem klenLow_congr (h : SameToHost s t) : klenLow s = klenLow t := by
  simp only [klenLow, h.klen]

/-- START's table depends on the loaded key bytes only (R104). -/
theorem SameToHost.ksaHw_eq (h : SameToHost s t) : ksaHw s.KEYMEM s.KLEN = ksaHw t.KEYMEM t.KLEN := by
  rw [← h.klen]
  exact ksaHw_congr fun p hp => h.key p (by omega) hp

theorem openInvocation_sameToHost (h : SameToHost s t) :
    SameToHost { s.withCipher (startCipher (ksaHw s.KEYMEM s.KLEN)) with PHASE := .run }
      { t.withCipher (startCipher (ksaHw t.KEYMEM t.KLEN)) with PHASE := .run } := by
  rw [h.ksaHw_eq]
  exact { h with phase := rfl, cipher := fun _ => rfl }

/-! ### What the host can tell apart: commands, words and steps -/

/-- Two outcomes that no host can tell apart: next states that look the same to it. -/
def SameOutcome (o o' : Host.Outcome State Fault Refusal) : Prop :=
  ∃ t t', o = .next t ∧ o' = .next t' ∧ SameToHost t t'

theorem sameOutcome_next (h : SameToHost s t) : SameOutcome (.next s) (.next t) := ⟨s, t, rfl, rfl, h⟩

theorem execKclr_sameOutcome (h : SameToHost s t) : SameOutcome (execKclr s) (execKclr t) := by
  unfold execKclr
  rw [← h.phase]
  cases s.PHASE with
  | fault => exact sameOutcome_next h
  | run => exact sameOutcome_next (raiseFault_sameToHost _ h)
  | idle => exact sameOutcome_next (unloadKey_sameToHost (toIdle_sameToHost h))

theorem execKpush_sameOutcome (b : Byte) (h : SameToHost s t) : SameOutcome (execKpush b s) (execKpush b t) := by
  unfold execKpush
  rw [← h.phase]
  cases s.PHASE with
  | fault => exact sameOutcome_next h
  | run => exact sameOutcome_next (raiseFault_sameToHost _ h)
  | idle => exact sameOutcome_next (appendKey_sameToHost b h)

theorem execStart_sameOutcome (h : SameToHost s t) : SameOutcome (execStart s) (execStart t) := by
  have hopen := openInvocation_sameToHost h
  unfold execStart
  rw [← h.phase]
  cases s.PHASE with
  | fault => exact sameOutcome_next h
  | run => exact sameOutcome_next (raiseFault_sameToHost _ h)
  | idle =>
    by_cases hk : s.KLEN.val = 0
    · simp only [if_pos hk, if_pos (h.klen ▸ hk)]
      exact sameOutcome_next (raiseFault_sameToHost _ h)
    · simp only [if_neg hk, if_neg (h.klen ▸ hk)]
      exact sameOutcome_next hopen

theorem execData_sameOutcome (b : Byte) (h : SameToHost s t) : SameOutcome (execData b s) (execData b t) := by
  unfold execData
  rw [← h.phase]
  cases hp : s.PHASE with
  | fault => exact sameOutcome_next h
  | idle => exact sameOutcome_next (raiseFault_sameToHost _ h)
  | run =>
    simp only [← h.cipher hp]
    exact sameOutcome_next (emit_sameToHost _ (withCipher_sameToHost _ h))

theorem execFinish_sameOutcome (h : SameToHost s t) : SameOutcome (execFinish s) (execFinish t) := by
  unfold execFinish
  rw [← h.phase]
  cases s.PHASE with
  | fault => exact sameOutcome_next h
  | run => exact sameOutcome_next (toIdle_sameToHost h)
  | idle => exact sameOutcome_next (toIdle_sameToHost h)

theorem execRdst_sameOutcome (sel : Byte) (h : SameToHost s t) : SameOutcome (execRdst sel s) (execRdst sel t) := by
  unfold execRdst
  rw [statusByte_congr h, klenLow_congr h]
  split_ifs
  · exact sameOutcome_next (emit_sameToHost _ h)
  · exact sameOutcome_next (emit_sameToHost _ h)
  · exact sameOutcome_next (raiseUnlessFault_sameToHost _ h)

theorem exec_sameOutcome (i : Instr) (h : SameToHost s t) : SameOutcome (exec i s) (exec i t) := by
  cases i with
  | nop => exact sameOutcome_next h
  | kclr => exact execKclr_sameOutcome h
  | kpush b => exact execKpush_sameOutcome b h
  | start => exact execStart_sameOutcome h
  | data b => exact execData_sameOutcome b h
  | finish => exact execFinish_sameOutcome h
  | rdst sel => exact execRdst_sameOutcome sel h
  | rst => exact sameOutcome_next (softReset_sameToHost h)

theorem acceptWord_sameOutcome (w : Word) (h : SameToHost s t) : SameOutcome (acceptWord w s) (acceptWord w t) := by
  cases hd : decode w with
  | ok i =>
    rw [acceptWord_ok s hd, acceptWord_ok t hd]
    exact exec_sameOutcome i h
  | error r =>
    rw [acceptWord_error s hd, acceptWord_error t hd]
    exact sameOutcome_next (raiseUnlessFault_sameToHost _ h)

theorem runEvent_sameOutcome (e : HostEvent) (h : SameToHost s t) : SameOutcome (runEvent e s) (runEvent e t) := by
  cases e with
  | command w => exact acceptWord_sameOutcome w h
  | take => exact sameOutcome_next (takeResponse_sameToHost h)
  | reset => exact sameOutcome_next (hardwareReset_sameToHost h)

/-- The ports agree, so the same move happens in both states. -/
theorem step_sameOutcome (h : SameToHost s t) : SameOutcome (step s) (step t) := by
  have hnext : nextEvent t.RSP.isSome t.host = nextEvent s.RSP.isSome s.host := by rw [h.rsp, h.host]
  cases he : nextEvent s.RSP.isSome s.host with
  | none =>
    rw [step_wait he, step_wait (hnext.trans he)]
    exact sameOutcome_next h
  | some move =>
    obtain ⟨e, rest⟩ := move
    rw [step_event he, step_event (hnext.trans he)]
    exact runEvent_sameOutcome e (withHost_sameToHost rest h)

end HostView

/-! ### The key in RUN (R25) -/

/-- In RUN every command but RST keeps the key, and RST unloads it without touching KEYMEM (R100, R101, R146). -/
theorem exec_run_key {i : Instr} {s t : State} (hrun : s.PHASE = .run) (h : exec i s = .next t) :
    t.KEYMEM = s.KEYMEM ∧ (t.KLEN = s.KLEN ∨ i = .rst ∧ t.KLEN = 0) := by
  rcases exec_cases h with ⟨-, rfl⟩ | ⟨hp, -⟩ | ⟨-, rfl, -⟩ | ⟨hp, -⟩ | ⟨hp, -⟩ | ⟨hp, -⟩ | ⟨hp, -⟩ | ⟨hp, -⟩ |
    ⟨-, b, -, rfl⟩ | ⟨-, rfl, -⟩ | ⟨-, rfl⟩ | ⟨-, rfl⟩ | ⟨sel, -, -, -, rfl⟩ | ⟨hi, rfl⟩
  · exact ⟨rfl, .inl rfl⟩ -- NOP
  · cases hrun.symm.trans hp -- refused in FAULT
  · exact ⟨rfl, .inl rfl⟩ -- PHASE_VIOLATION in RUN
  · cases hrun.symm.trans hp -- PHASE_VIOLATION in IDLE
  · cases hrun.symm.trans hp -- BAD_KEYLEN, in IDLE only
  · cases hrun.symm.trans hp -- KCLR in IDLE
  · cases hrun.symm.trans hp -- KPUSH in IDLE
  · cases hrun.symm.trans hp -- START in IDLE
  · exact ⟨rfl, .inl rfl⟩ -- DATA
  · exact ⟨rfl, .inl rfl⟩ -- FINISH
  · exact ⟨rfl, .inl rfl⟩ -- RDST 0
  · exact ⟨rfl, .inl rfl⟩ -- RDST 1
  · exact ⟨by simp, .inl (by simp)⟩ -- RDST of another selector
  · exact ⟨rfl, .inr ⟨hi, rfl⟩⟩ -- RST

/-! ### The fields of the STATUS byte (R29) -/

theorem phaseBits_toNat (p : Phase) : (phaseBits p).toNat = Spec.phaseNumber p := by cases p <;> rfl

theorem errBits_toNat (e : ErrCode) : (errBits e).toNat = Spec.errNumber e := by cases e <;> rfl

theorem kfullBit_toNat (klen : Fin 257) : (kfullBit klen).toNat = if klen.val = 256 then 1 else 0 := by
  unfold kfullBit; split <;> rfl

/-- What stands in the four fields of `{0b00, KFULL, ERRCODE[2:0], PHASE[1:0]}`. -/
theorem extract_fields (full : BitVec 1) (err : BitVec 3) (phase : BitVec 2) :
    (0#2 ++ full ++ err ++ phase).extractLsb' 0 2 = phase ∧ (0#2 ++ full ++ err ++ phase).extractLsb' 2 3 = err ∧
    (0#2 ++ full ++ err ++ phase).extractLsb' 5 1 = full ∧ (0#2 ++ full ++ err ++ phase).extractLsb' 6 2 = 0#2 := by
  revert full err phase
  decide

theorem exec_rdst_status (s : State) : exec (.rdst 0#8) s = .next (emit (statusByte s) s) := rfl

/-! ### The obligations -/

/-- Settles O18: every operation that a step is made of keeps the invariant or establishes it. -/
theorem stepKeepsInvariant : Obligations.StepKeepsInvariant := fun _ _ => step_inv

/-- Settles O19: the same move happens in both states, and each move answers states that look the same. -/
theorem stepKeepsHostUnableToTell : Obligations.StepKeepsHostUnableToTell := fun _ _ => step_sameOutcome

/-- Settles O27: an accepted word keeps the key but for RST, whose one word is 0x0700; a wait and a take keep it; a
hardware reset unloads it. -/
theorem keyIsImmutableInRun : Obligations.KeyIsImmutableInRun := by
  intro s t hrun h
  obtain ⟨-, rfl⟩ | ⟨w, rest, hr, hh, hw⟩ | ⟨rest, -, rfl⟩ | ⟨rest, he, rfl⟩ := step_cases h
  · exact .inl ⟨rfl, rfl⟩
  · obtain ⟨i, hd, hi⟩ | ⟨r, -, rfl⟩ := acceptWord_cases hw
    · obtain ⟨hkeymem, hklen | ⟨rfl, hklen⟩⟩ := exec_run_key (s := s.withHost rest) hrun hi
      · exact .inl ⟨hkeymem, hklen⟩
      · have hword : w = 0x0700#16 := (encode_of_decode_ok hd).symm
        exact .inr (.inl ⟨hkeymem, by simp [hklen], rest, hr, by rw [hh, hword]⟩)
    · exact .inl (by simp)
  · exact .inl (by simp)
  · exact .inr (.inr ⟨rfl, rest, he⟩)

/-- Settles O36: the byte RDST 0 answers is the STATUS byte, whose fields are read off its concatenation. -/
theorem statusFields : Obligations.StatusFields := by
  refine ⟨fun s => ⟨statusByte s, exec_rdst_status s, ?_⟩, fun s t h => ?_⟩
  · obtain ⟨hphase, herr, hfull, hzero⟩ := extract_fields (kfullBit s.KLEN) (errBits s.ERRCODE) (phaseBits s.PHASE)
    unfold statusByte
    rw [hphase, herr, hfull]
    exact ⟨phaseBits_toNat _, errBits_toNat _, kfullBit_toNat _, hzero⟩
  · rw [exec_rdst_status] at h
    obtain rfl := Host.Outcome.next.inj h
    simp +contextual [statusByte, phaseBits, errBits, kfullBit, Nat.ne_of_lt]

/-- Settles O15: the defined items are those of `afterReset`, and the unspecified ones are dead in IDLE with KLEN = 0. -/
theorem resetLeavesDefinedItems : Obligations.ResetLeavesDefinedItems :=
  ⟨rfl, rfl, rfl, rfl, rfl, afterReset_sameToHost⟩

/-- Settles O17: a reset state is in IDLE with no fault recorded. -/
theorem resetMeetsInvariant : Obligations.ResetMeetsInvariant := ⟨afterReset_inv 0 [] [], afterReset_inv⟩

end Sys2Proof.Machine
end

section

/-! ## The statements of 20_memory.md: the response port (R51) and the guarded key read (R53). -/

namespace Sys2Proof.Machine

/-- The positions START asks for stay inside the key bytes or reach KLEN, but never past 255 (R53, R90, R94). -/
theorem keyPosition_bounds {klen i : Nat} (hk : 1 ≤ klen) (hi : i ≤ 254) :
    1 ≤ i % klen + 1 ∧ i % klen + 1 ≤ min klen 255 := by
  have hlt : i % klen < klen := Nat.mod_lt i hk
  have hle : i % klen ≤ i := Nat.mod_le i klen
  omega

/-- Settles O11: the move is the take (`step_take`), and it acts on what the response port holds. -/
theorem hostTakesResponse : Obligations.HostTakesResponse := by
  intro s rest hh
  rw [step_take hh]
  refine ⟨fun b hb => ?_, fun hnone => ?_⟩
  · rw [takeResponse_some (s := s.withHost rest) hb]
    rfl
  · rw [takeResponse_none (s := s.withHost rest) hnone, withHost_eq]

/-- Settles O38: the two cases of `keyread`, and the bounds on the positions of rounds 0..254. -/
theorem guardedKeyRead : Obligations.GuardedKeyRead := by
  refine ⟨fun keymem klen p _ => ⟨fun hlt => ?_, keyread_ge keymem⟩, fun keymem klen i hk hi => ?_⟩
  · rw [keyread_lt keymem hlt]
    exact Vector.getElem?_eq_getElem _
  · obtain ⟨hpos, hle⟩ := keyPosition_bounds hk hi
    exact ⟨i % klen.val + 1, rfl, rfl, hpos, hle, fun hge => by omega⟩

end Sys2Proof.Machine
end

section

/-! ## The statements of 30_encoding.md: the decoder against the encoder, the rows of the opcode map (R73), the three
classes (R74), and what a word that is no command does (R75, R76). -/

namespace Sys2Proof.Machine

open Sys2Proof.Spec Sys2Proof.Laws

/-! ### The decoder and the encoder -/

/-- Each well-formed command is read back from its own word (R73). -/
theorem decode_encode {i : Instr} (h : i.wellFormed = true) : decode (encode i) = .ok i := by
  cases i with
  | nop | kclr | start | finish | rst => rfl
  | kpush b | data b => simp [decode, encode]
  | rdst sel =>
    have hsel : sel.toNat ≤ 1 := of_decide_eq_true h
    simp [decode, encode, decodeRdst, hsel]

/-- The operand of a command that the decoder answers is the low byte of its word (R70). -/
theorem operand_of_decode_ok {w : Word} {i : Instr} {b : Byte} (h : decode w = .ok i)
    (hb : i = .kpush b ∨ i = .data b ∨ i = .rdst b) : b.toNat = w.toNat % 256 := by
  rw [← lowByteOf_toNat, ← encode_of_decode_ok h]
  rcases hb with rfl | rfl | rfl <;> simp [encode]

/-! ### The rows of the opcode map (R73) -/

/-- The word of a well-formed command selects the command's row. -/
theorem encode_selects_row {i : Instr} (h : i.wellFormed = true) : encode i &&& rowMask i = rowValue i := by
  cases i with
  | nop => exact RowMatch.nop h
  | kclr => exact RowMatch.kclr h
  | kpush b => exact RowMatch.kpush b h
  | start => exact RowMatch.start h
  | data b => exact RowMatch.data b h
  | finish => exact RowMatch.finish h
  | rdst sel => exact RowMatch.rdst sel h
  | rst => exact RowMatch.rst h

/-- A word that decodes selects the row of its command. -/
theorem row_of_decode_ok {w : Word} {i : Instr} (h : decode w = .ok i) : w &&& rowMask i = rowValue i := by
  have hrow := encode_selects_row (wellFormed_of_decode_ok h)
  rwa [encode_of_decode_ok h] at hrow

/-- A row of format N fixes all 16 bits, so one word selects it: the encoding of its command. -/
theorem decode_of_full_mask {w : Word} {i : Instr} (hi : i.wellFormed = true) (h : w &&& 0xFFFF#16 = encode i) :
    decode w = .ok i := by
  have hw : w = encode i := BitVec.and_allOnes.symm.trans h
  rw [hw, decode_encode hi]

/-- A row whose mask covers the opcode byte fixes the opcode. -/
theorem opcodeOf_of_mask {w mask value : Word} (hmask : opcodeOf mask = BitVec.allOnes 8)
    (h : w &&& mask = value) : opcodeOf w = opcodeOf value := by
  have hand : opcodeOf (w &&& mask) = opcodeOf w &&& opcodeOf mask := BitVec.extractLsb'_and
  rw [← h, hand, hmask, BitVec.and_allOnes]

/-- A word with the opcode of `i` and its operand in the low byte is the encoding of `i` (R70). -/
theorem decode_of_opcode {w : Word} {i : Instr} (hi : i.wellFormed = true) {op : Byte} (hop : opcodeOf w = op)
    (henc : encode i = wordOf op (w.setWidth 8)) : decode w = .ok i := by
  have hlow : w.setWidth 8 = lowByteOf w := BitVec.setWidth_eq_extractLsb' (by decide)
  rw [← wordOf_fields w, hop, ← hlow, ← henc, decode_encode hi]

/-- The row of RDST leaves only bit 0 to the selector (R72). -/
theorem selector_le_one_of_mask {w : Word} (h : w &&& 0xFFFE#16 = 0x0600#16) : (w.setWidth 8).toNat ≤ 1 := by
  have hlow : w.setWidth 8 &&& 0xFE#8 = 0x00#8 := BitVec.setWidth_and.symm.trans (congrArg (BitVec.setWidth 8) h)
  have hsel : ∀ sel : Byte, sel &&& 0xFE#8 = 0x00#8 → sel.toNat ≤ 1 := by decide +kernel
  exact hsel _ hlow

/-! ### The three classes (R74) -/

theorem lt_eight_of_legalLow {op lo : Nat} (h : legalLow op lo) : op < 8 := by
  unfold legalLow at h
  omega

/-- The class that R74 gives a word, and the decoder's answer in it. -/
theorem decode_class (w : Word) :
    (8 ≤ w.toNat / 256 ∧ decode w = .error .reservedOpcode) ∨
    (w.toNat / 256 < 8 ∧ ¬ legalLow (w.toNat / 256) (w.toNat % 256) ∧ decode w = .error .reservedOperand) ∨
    (legalLow (w.toNat / 256) (w.toNat % 256) ∧ ∃ i, decode w = .ok i) := by
  have hrow := decode_cases (opcodeOf w) (lowByteOf w)
  rw [wordOf_fields] at hrow
  rw [← opcodeOf_toNat, ← lowByteOf_toNat]
  rcases hrow with ⟨hop, hlo, hd⟩ | ⟨hop, hlo, hd⟩ | ⟨hop, hd⟩ | ⟨hop, hlo, hd⟩ | ⟨hop, hd⟩ | ⟨hop, hlo, hd⟩ |
    ⟨hop, hlo, hd⟩ | ⟨hop, hlo, hd⟩ | ⟨hop, hd⟩ | ⟨hop, hlo, hd⟩ | ⟨hop, hlo, hd⟩
  iterate 8 exact .inr (.inr ⟨by simp [legalLow, *], _, hd⟩) -- the rows of the eight commands
  · exact .inl ⟨hop, hd⟩
  · have hne : (lowByteOf w).toNat ≠ 0 := fun h => hlo (BitVec.eq_of_toNat_eq h) -- format N with a nonzero low byte
    rcases hop with h | h | h | h | h <;> exact .inr (.inl ⟨by simp [h], by simp [legalLow, h, hne], hd⟩)
  · exact .inr (.inl ⟨by simp [hop], by simp [legalLow, hop, hlo], hd⟩) -- RDST with a selector above 1

theorem decode_eq_reservedOpcode {w : Word} (h : 8 ≤ w.toNat / 256) : decode w = .error .reservedOpcode := by
  obtain ⟨-, hd⟩ | ⟨hlt, -⟩ | ⟨hlegal, -⟩ := decode_class w
  · exact hd
  · omega
  · exact absurd (lt_eight_of_legalLow hlegal) (by omega)

theorem decode_eq_reservedOperand {w : Word} (hop : w.toNat / 256 < 8)
    (hlow : ¬ legalLow (w.toNat / 256) (w.toNat % 256)) : decode w = .error .reservedOperand := by
  obtain ⟨hge, -⟩ | ⟨-, -, hd⟩ | ⟨hlegal, -⟩ := decode_class w
  · omega
  · exact hd
  · exact absurd hlegal hlow

theorem decode_isCommand {w : Word} (h : legalLow (w.toNat / 256) (w.toNat % 256)) : ∃ i, decode w = .ok i := by
  obtain ⟨hge, -⟩ | ⟨-, hlow, -⟩ | ⟨-, hd⟩ := decode_class w
  · exact absurd (lt_eight_of_legalLow h) (by omega)
  · exact absurd h hlow
  · exact hd

/-- Counting words by what the decoder answers: the first 2048 have the eight opcodes of R73, and the `m` after them are
reserved opcodes. -/
theorem countP_decode (p : Except Reject Instr → Bool) {n k m : Nat} (hn : n = 2048 + m) (hm : m ≤ 63488)
    (hk : (List.range 2048).countP (fun i => p (decode (BitVec.ofNat 16 i))) = k) :
    (List.range n).countP (fun i => p (decode (BitVec.ofNat 16 i))) =
      if p (.error .reservedOpcode) then k + m else k := by
  have htail : ∀ i ∈ List.range m,
      p (decode (BitVec.ofNat 16 (2048 + i))) = true ↔ p (.error .reservedOpcode) = true := by
    intro i hi
    have hlt : i < m := List.mem_range.1 hi
    rw [decode_eq_reservedOpcode (by rw [BitVec.toNat_ofNat]; omega)]
  rw [hn, List.range_add, List.countP_append, List.countP_map, hk]
  simp only [Function.comp_def, List.countP_congr htail]
  cases p (.error .reservedOpcode) <;> simp

/-! The kernel counts the 2048 words of the eight opcodes; `countP_decode` adds the 63488 others where they belong. -/

theorem countP_reservedOpcode :
    (List.range 65536).countP (fun i => decide (decode (BitVec.ofNat 16 i) = .error .reservedOpcode)) = 63488 :=
  (countP_decode (fun d => decide (d = .error .reservedOpcode)) (k := 0) (m := 63488) rfl le_rfl
    (by decide +kernel)).trans rfl

theorem countP_reservedOperand :
    (List.range 65536).countP (fun i => decide (decode (BitVec.ofNat 16 i) = .error .reservedOperand)) = 1529 :=
  (countP_decode (fun d => decide (d = .error .reservedOperand)) (k := 1529) (m := 63488) rfl le_rfl
    (by decide +kernel)).trans rfl

theorem countP_commands : (List.range 65536).countP (fun i => (decode (BitVec.ofNat 16 i)).isOk) = 519 :=
  (countP_decode Except.isOk (k := 519) (m := 63488) rfl le_rfl (by decide +kernel)).trans rfl

/-! ### A word that is no command (R75, R76) -/

section Rejected
variable {s : State} {w : Word} {rest : List HostEvent} {r : Reject}

/-- In IDLE and RUN a rejected word raises its fault, and nothing else has changed (R205). -/
theorem step_rejected_live (hp : Presents s w rest) (hd : decode w = .error r) (hs : s.PHASE ≠ .fault) :
    step s = .next { s with host := rest, ERRCODE := rejectCode r, PHASE := .fault } := by
  obtain ⟨hr, hh⟩ := hp
  rw [step_command hr hh, acceptWord_error _ hd, raiseUnlessFault_live (s := s.withHost rest) _ hs]
  rfl

/-- In FAULT a rejected word is refused (R207). -/
theorem step_rejected_fault (hp : Presents s w rest) (hd : decode w = .error r) (hs : s.PHASE = .fault) :
    step s = .next { s with host := rest } := by
  obtain ⟨hr, hh⟩ := hp
  rw [step_command hr hh, acceptWord_error _ hd, raiseUnlessFault_fault (s := s.withHost rest) _ hs, withHost_eq]

end Rejected

/-! ### The obligations -/

/-- Settles O3, command by command: each row's word has its own opcode, and its low byte is the operand. -/
theorem decodeOfEncode : Obligations.DecodeOfEncode := fun _ => decode_encode

/-- Settles O2: a selected row fixes the word but for the operand; a word that decodes selects a row, so a word that selects none
is rejected. -/
theorem decoderFollowsMatchAndMask : Obligations.DecoderFollowsMatchAndMask := by
  intro w
  refine ⟨decode_of_full_mask (i := .nop) rfl,
    decode_of_full_mask (i := .kclr) rfl,
    fun h => decode_of_opcode (i := .kpush _) rfl (opcodeOf_of_mask rfl h) rfl,
    decode_of_full_mask (i := .start) rfl,
    fun h => decode_of_opcode (i := .data _) rfl (opcodeOf_of_mask rfl h) rfl,
    decode_of_full_mask (i := .finish) rfl,
    fun h => decode_of_opcode (i := .rdst _) (decide_eq_true (selector_le_one_of_mask h)) (opcodeOf_of_mask rfl h) rfl,
    decode_of_full_mask (i := .rst) rfl,
    fun hnop hkclr hkpush hstart hdata hfinish hrdst hrst => ?_⟩
  cases hd : decode w with
  | error r => exact ⟨r, rfl⟩
  | ok i =>
    have hrow := row_of_decode_ok hd
    cases i with
    | nop => exact absurd hrow hnop
    | kclr => exact absurd hrow hkclr
    | kpush b => exact absurd hrow hkpush
    | start => exact absurd hrow hstart
    | data b => exact absurd hrow hdata
    | finish => exact absurd hrow hfinish
    | rdst sel => exact absurd hrow hrdst
    | rst => exact absurd hrow hrst

/-- Settles O4: the decoder answers well-formed commands only, and each for its own word only. -/
theorem encodeOfDecode : Obligations.EncodeOfDecode :=
  fun _ _ h => ⟨wellFormed_of_decode_ok h, encode_of_decode_ok h⟩

/-- Settles O5: the class of a word decides the answer, and the words above 0x07FF are all of class (1). -/
theorem decodingIsTotalInThreeClasses : Obligations.DecodingIsTotalInThreeClasses := by
  refine ⟨fun w => ⟨decode_eq_reservedOpcode, decode_eq_reservedOperand, fun h => ?_⟩,
    countP_reservedOpcode, countP_reservedOperand, countP_commands⟩
  obtain ⟨i, hd⟩ := decode_isCommand h
  exact ⟨i, hd, by rw [encode_of_decode_ok hd], fun b => operand_of_decode_ok hd⟩

/-- Settles O1: the decoder evaluated at each of the words. -/
theorem specWordsDecode : Obligations.SpecWordsDecode := by
  unfold Obligations.SpecWordsDecode
  decide

/-- Settles O8: a reserved opcode is a rejected word with the code ILLEGAL_OPCODE. -/
theorem reservedOpcodesFault : Obligations.ReservedOpcodesFault := by
  intro s w rest hp hop
  have hd := decode_eq_reservedOpcode hop
  exact ⟨by simp [hd], step_rejected_live hp hd, step_rejected_fault hp hd⟩

/-- Settles O9: a reserved operand is a rejected word with the code RESERVED_OPERAND, and 0x0701 is one; the legal forms are
the words of commands. -/
theorem reservedOperandsFault : Obligations.ReservedOperandsFault := by
  refine ⟨fun s w rest hp hop hlow => ?_, fun s rest hp => ?_, fun s _ => ⟨?_, ?_, ?_, ?_⟩⟩
  · have hd := decode_eq_reservedOperand hop hlow
    exact ⟨step_rejected_live hp hd, step_rejected_fault hp hd⟩
  · exact step_rejected_fault hp (r := .reservedOperand) (by decide)
  · exact acceptWord_ok s (decode_encode (i := .nop) rfl)
  · exact acceptWord_ok s (decode_encode (i := .rdst 0#8) rfl)
  · exact acceptWord_ok s (decode_encode (i := .rdst 1#8) rfl)
  · exact acceptWord_ok s (decode_encode (i := .rst) rfl)

end Sys2Proof.Machine
end

section

/-! ## The statements of 40_ksa.md: the key schedule against the pseudocode of R96, what it reads of the key (R98, R99,
R104), and the commands KCLR, KPUSH and START (R100 to R102). -/

namespace Sys2Proof.Machine

open Sys2Proof.Spec

/-! ### One round (R93) -/

section Round
variable (S : Table) (J I key : Byte)

/-- The new accumulator, the sum taken as a natural number and then reduced. -/
theorem ksaRound_acc_toNat :
    (ksaRound (S, J) I key).2.toNat = (J.toNat + (tableGet S I).toNat + key.toNat) % 256 := by
  simp [ksaRound, BitVec.toNat_add]

/-- The new table is the old one with the entries I and J' exchanged. -/
theorem tableGet_ksaRound (k : Byte) :
    tableGet (ksaRound (S, J) I key).1 k =
      if k = (ksaRound (S, J) I key).2 then tableGet S I
      else if k = I then tableGet S (ksaRound (S, J) I key).2 else tableGet S k :=
  tableGet_tableSwap S I _ k

end Round

/-- Where J' = I the round leaves the table unchanged (R10, R93). -/
theorem ksaRound_table_of_acc_eq {S : Table} {J I key : Byte} (h : (ksaRound (S, J) I key).2 = I) :
    (ksaRound (S, J) I key).1 = S := by
  refine table_ext fun k => ?_
  rw [tableGet_ksaRound, h]
  split_ifs with hk
  · rw [hk]
  · rfl

/-! ### The rounds against the pseudocode on natural numbers (R96) -/

/-- The pair (S, J) of the model holds the numbers of the pseudocode's pair. -/
def HoldsNumbers (t : Table × Byte) (st : (Nat → Nat) × Nat) : Prop :=
  (∀ k : Byte, (tableGet t.1 k).toNat = st.1 k.toNat) ∧ t.2.toNat = st.2

/-- Reading after the pseudocode's swap, at bytes; the entries are tested in the order of `tableGet_tableSwap`. -/
theorem swapNat_toNat (T : Nat → Nat) (p q k : Byte) :
    swapNat T p.toNat q.toNat k.toNat =
      if k = q then T p.toNat else if k = p then T q.toNat else T k.toNat := by
  simp only [swapNat, BitVec.toNat_inj]
  by_cases hp : k = p
  · by_cases hq : k = q
    · rw [if_pos hp, if_pos hq, ← hp, ← hq]
    · rw [if_pos hp, if_neg hq, if_pos hp]
  · simp only [if_neg hp]

/-- One round of the model does to its table and accumulator what one pass of the pseudocode does to its numbers. -/
theorem ksaRound_holdsNumbers {t : Table × Byte} {st : (Nat → Nat) × Nat} {K : Nat → Nat} {L : Nat} {I key : Byte}
    (h : HoldsNumbers t st) (hkey : key.toNat = keyxNat K L I.toNat) :
    HoldsNumbers (ksaRound t I key) (roundNat K L st I.toNat) := by
  obtain ⟨S, J⟩ := t
  obtain ⟨hS, hJ⟩ := h
  have hacc : (ksaRound (S, J) I key).2.toNat = (roundNat K L st I.toNat).2 := by
    rw [ksaRound_acc_toNat, hS, hkey, roundNat, ← hJ]
  refine ⟨fun k => ?_, hacc⟩
  calc (tableGet (ksaRound (S, J) I key).1 k).toNat
      = swapNat st.1 I.toNat (ksaRound (S, J) I key).2.toNat k.toNat := by
        rw [tableGet_ksaRound, swapNat_toNat]
        simp only [apply_ite BitVec.toNat, hS]
    _ = (roundNat K L st I.toNat).1 k.toNat := by rw [hacc, roundNat]

/-- The first `n` rounds of the model are the first `n` passes of the pseudocode, as long as I stays below 256. -/
theorem ksaRounds_holdsNumbers {kx : Nat → Byte} {K : Nat → Nat} {L : Nat}
    (hkx : ∀ i, (kx i).toNat = keyxNat K L i) {n : Nat} (hn : n ≤ 256) :
    HoldsNumbers (ksaRounds kx n) ((List.range n).foldl (roundNat K L) (fun k => k, 0)) := by
  induction n with
  | zero => exact ⟨fun k => congrArg BitVec.toNat (tableGet_identityTable k), rfl⟩
  | succ n ih =>
    have hI : (BitVec.ofNat 8 n).toNat = n := Nat.mod_eq_of_lt (by omega)
    have hround := ksaRound_holdsNumbers (I := BitVec.ofNat 8 n) (ih (by omega)) ((hkx n).trans (by rw [hI]))
    rw [hI] at hround
    rwa [List.range_succ, List.foldl_append]

/-- The 255 rounds leave the table of the pseudocode, for every expanded key with its key bytes (R94, R96). -/
theorem schedule_toNat {kx : Nat → Byte} {K : Nat → Nat} {L : Nat} (hkx : ∀ i, (kx i).toNat = keyxNat K L i)
    (k : Byte) : (tableGet (schedule kx) k).toNat = ksaNat K L k.toNat := by
  obtain ⟨htable, -⟩ := ksaRounds_holdsNumbers hkx (n := 255) (by decide)
  unfold schedule
  exact htable k

/-- The key byte of a round, for a key given as its bytes, is that of R90. -/
theorem keyxOfKey_toNat (K : List Byte) (i : Nat) :
    (keyxOfKey K i).toNat = keyxNat (fun p => (K.getD p 0).toNat) K.length i := by
  rw [keyxOfKey_eq_getD, keyxNat]
  split_ifs with h
  · rfl
  · rw [List.getD_eq_default _ _ (Nat.not_lt.1 h)]
    rfl

/-- The key byte of a round in hardware is that of R90, with K = KEYMEM and L = KLEN. -/
theorem keyx_toNat (keymem : Table) (klen : Fin 257) (i : Nat) :
    (keyx keymem klen i).toNat = keyxNat (fun p => (keymem.toList.getD p 0).toNat) klen.val i := by
  rw [keyx, keyxNat]
  split_ifs with h
  · rw [keyread_lt keymem h, List.getD_eq_getElem _ _ (by simp; omega)]
    simp
  · rw [keyread_ge keymem (Nat.not_lt.1 h)]
    rfl

/-! ### What the key schedule reads of the key (R90, R98, R99) -/

/-- A position at or above L gives the key byte 0 (R90). -/
theorem keyxOfKey_eq_zero {K : List Byte} {i : Nat} (h : K.length ≤ i % K.length + 1) : keyxOfKey K i = 0 := by
  rw [keyxOfKey_eq_getD, List.getD_eq_default _ _ h]

/-- A round I with I + 1 below L reads K[I + 1] (R90). -/
theorem getElem?_succ_eq_keyxOfKey {K : List Byte} {i : Nat} (h : i + 1 < K.length) :
    K[i + 1]? = some (keyxOfKey K i) := by
  rw [keyxOfKey_eq_getD, Nat.mod_eq_of_lt (by omega), List.getD_eq_getElem _ _ h, List.getElem?_eq_getElem h]

/-- The rounds read the positions 1..min(L-1, 255) only (R98). -/
theorem ksa_congr {K K' : List Byte} (hlen : K.length = K'.length)
    (h : ∀ p : Nat, 1 ≤ p → p ≤ min (K.length - 1) 255 → K[p]? = K'[p]?) : ksa K = ksa K' := by
  refine schedule_congr fun i hi => ?_
  have hle : i % K.length ≤ i := Nat.mod_le i _
  by_cases hp : i % K.length + 1 < K.length
  · rw [keyxOfKey_eq_getD, keyxOfKey_eq_getD, ← hlen, List.getD_eq_getElem?_getD, List.getD_eq_getElem?_getD,
      h _ (by omega) (by omega)]
  · rw [keyxOfKey_eq_zero (Nat.not_lt.1 hp), keyxOfKey_eq_zero (hlen ▸ Nat.not_lt.1 hp)]

/-- Keys of 256 or more bytes are told apart by their bytes 1..255 only, whatever their lengths (R99). -/
theorem ksa_congr_of_long {K K' : List Byte} (hK : 256 ≤ K.length) (hK' : 256 ≤ K'.length)
    (h : ∀ p : Nat, 1 ≤ p → p ≤ 255 → K[p]? = K'[p]?) : ksa K = ksa K' := by
  refine schedule_congr fun i hi => Option.some.inj ?_
  rw [← getElem?_succ_eq_keyxOfKey (by omega), ← getElem?_succ_eq_keyxOfKey (by omega)]
  exact h (i + 1) (by omega) (by omega)

/-- The first byte of a key is never read (R98). -/
theorem ksa_cons (a b : Byte) (K : List Byte) : ksa (a :: K) = ksa (b :: K) := by
  refine ksa_congr rfl fun p hp _ => ?_
  obtain ⟨q, rfl⟩ := Nat.exists_eq_succ_of_ne_zero (Nat.one_le_iff_ne_zero.1 hp)
  rfl

/-- Of the key the transform sees the table and whether there is a key at all (R130, R136). -/
theorem transform_congr {K K' : List Byte} (hlen : K.length = K'.length) (h : ksa K = ksa K') (B : List Byte) :
    transform K B = transform K' B := by
  cases K with
  | nil => rw [List.length_eq_zero_iff.1 hlen.symm]
  | cons a K =>
    cases K' with
    | nil => cases hlen
    | cons b K' => rw [transform, transform, h]

/-! ### The commands, phase by phase (R100 to R102) -/

section Commands
variable {s : State} {i : Instr}

/-- KCLR, KPUSH and START in RUN raise PHASE_VIOLATION (R141). -/
theorem exec_keyCommand_run (hp : s.PHASE = .run) (hi : i = .kclr ∨ i = .start ∨ ∃ b, i = .kpush b) :
    exec i s = .next (raiseFault .phaseViolation s) := by
  rcases hi with rfl | rfl | ⟨b, rfl⟩
  · simp [exec, execKclr, hp]
  · simp [exec, execStart, hp]
  · simp [exec, execKpush, hp]

/-- KCLR, KPUSH and START in FAULT are refused (R207). -/
theorem exec_keyCommand_fault (hp : s.PHASE = .fault) (hi : i = .kclr ∨ i = .start ∨ ∃ b, i = .kpush b) :
    exec i s = .next s := by
  rcases hi with rfl | rfl | ⟨b, rfl⟩
  · simp [exec, execKclr, hp]
  · simp [exec, execStart, hp]
  · simp [exec, execKpush, hp]

theorem exec_kclr_idle (hp : s.PHASE = .idle) : exec .kclr s = .next { s with KLEN := 0 } := by
  simp [exec, execKclr, hp]

theorem exec_kpush_idle (b : Byte) (hp : s.PHASE = .idle) : exec (.kpush b) s = .next (appendKey b s) := by
  simp [exec, execKpush, hp]

theorem exec_start_noKey (hp : s.PHASE = .idle) (hk : s.KLEN.val = 0) :
    exec .start s = .next (raiseFault .badKeylen s) := by
  simp [exec, execStart, hp, hk]

theorem exec_start_opens (hp : s.PHASE = .idle) (hk : 1 ≤ s.KLEN.val) :
    exec .start s =
      .next { s with S := ksaHw s.KEYMEM s.KLEN, X := 0xFF#8, Y := 0xFF#8, PHASE := .run } := by
  have hne : s.KLEN.val ≠ 0 := by omega
  simp only [exec, execStart, hp, if_neg hne]
  rfl

end Commands

/-- KEYMEM after KPUSH in room: the byte at position KLEN, every other byte as it was (R101). -/
theorem appendKey_getElem? {s : State} (b : Byte) (h : s.KLEN.val < 256) (p : Nat) :
    (appendKey b s).KEYMEM[p]? = if p = s.KLEN.val then some b else s.KEYMEM[p]? := by
  rw [appendKey_room b h, Vector.getElem?_set]
  simp only [eq_comm]

/-- A word whose opcode is known and whose low byte that opcode does not allow raises RESERVED_OPERAND in IDLE and RUN, with
nothing else changed (R76, R205). -/
theorem acceptWord_reservedOperand_live {s : State} {w : Word} (hop : w.toNat / 256 < 8)
    (hlow : ¬ legalLow (w.toNat / 256) (w.toNat % 256)) (hp : s.PHASE ≠ .fault) :
    acceptWord w s = .next { s with ERRCODE := .reservedOperand, PHASE := .fault } := by
  rw [acceptWord_error s (decode_eq_reservedOperand hop hlow), raiseUnlessFault_live _ hp]
  rfl

/-! ### The obligations -/

/-- Settles O32: `exec_start_opens` with the loaded key read as a list (`ksaHw_eq_ksa`), and the three faults. -/
theorem startEffect : Obligations.StartEffect := by
  refine ⟨fun s hp hk => ?_, fun s => exec_start_noKey,
    fun s hp => exec_keyCommand_run hp (.inr (.inl rfl)), fun s hp => exec_keyCommand_fault hp (.inr (.inl rfl)),
    fun s w hop hlow hp => acceptWord_reservedOperand_live (by omega) (by simp [legalLow, hop, hlow]) hp⟩
  rw [exec_start_opens hp hk, ksaHw_eq_ksa]

/-- Settles O40: both expanded keys hold the numbers of R90, and the rounds keep to the pseudocode from there. -/
theorem startTableMatchesPseudocode : Obligations.StartTableMatchesPseudocode :=
  ⟨fun keymem klen k _ => schedule_toNat (keyx_toNat keymem klen) k,
    fun K k _ => schedule_toNat (keyxOfKey_toNat K) k⟩

/-- Settles O41: the schedule starts from the identity and only swaps, whatever the expanded key. -/
theorem scheduleIsPermutation : Obligations.ScheduleIsPermutation :=
  ⟨fun _ _ => schedule_isPermutation _, fun keymem klen _ => ksaHw_isPermutation keymem klen⟩

/-- Settles O42: the positions read are 1..min(L-1, 255), and with L = 1 there is none. -/
theorem firstKeyByteIsNeverRead : Obligations.FirstKeyByteIsNeverRead := by
  refine ⟨fun K K' hlen h => ?_, fun a b K => ?_, fun a b => ⟨ksa_cons a b [], fun i => ?_⟩⟩
  · have hksa := ksa_congr hlen h
    exact ⟨hksa, transform_congr hlen hksa⟩
  · exact ⟨ksa_cons a b K, transform_congr rfl (ksa_cons a b K)⟩
  · exact keyxOfKey_eq_zero (Nat.le_add_left 1 _)

/-- Settles O43: with L ≥ 256 no round wraps, so round I reads K[I + 1]; with L = 255 round 254 reads position L. -/
theorem longKeysEqualTheirFirst256Bytes : Obligations.LongKeysEqualTheirFirst256Bytes := by
  refine ⟨fun K hK => ⟨fun i hi => ?_, ?_, fun K' => ksa_congr_of_long hK⟩, fun K hK => ?_, fun K hK => ?_⟩
  · exact getElem?_succ_eq_keyxOfKey (by omega)
  · refine ksa_congr_of_long hK (by simp [hK]) fun p _ hp => ?_
    rw [List.getElem?_take_of_lt (by omega)]
  · exact keyxOfKey_eq_zero (by rw [hK])
  · exact getElem?_succ_eq_keyxOfKey (by omega)

/-- Settles O44: START's table is a function of KLEN and the key bytes below it (`ksaHw_congr`), X and Y are constants. -/
theorem startReadsOnlyTheLoadedKey : Obligations.StartReadsOnlyTheLoadedKey := by
  intro s s' hp hp' hk hklen hkey
  have htable : ksaHw s.KEYMEM s.KLEN = ksaHw s'.KEYMEM s'.KLEN := by rw [← hklen, ksaHw_congr hkey]
  exact ⟨_, _, exec_start_opens hp hk, exec_start_opens hp' (hklen ▸ hk), htable, rfl, rfl⟩

/-- Settles O30, phase by phase. -/
theorem kclrEffect : Obligations.KclrEffect :=
  ⟨fun _ => exec_kclr_idle, fun _ hp => exec_keyCommand_run hp (.inl rfl),
    fun _ hp => exec_keyCommand_fault hp (.inl rfl),
    fun _ _ hop hlow hp => acceptWord_reservedOperand_live (by omega) (by simp [legalLow, hop, hlow]) hp⟩

/-- Settles O31: in IDLE the command is `appendKey`, whose two cases are room and KLEN = 256. -/
theorem kpushEffect : Obligations.KpushEffect := by
  refine ⟨fun s b hp hroom => ?_, fun s b hp hfull => ?_,
    fun s b hp => exec_keyCommand_run hp (.inr (.inr ⟨b, rfl⟩)),
    fun s b hp => exec_keyCommand_fault hp (.inr (.inr ⟨b, rfl⟩))⟩
  · refine ⟨appendKey b s, exec_kpush_idle b hp, ?_, fun p _ => appendKey_getElem? b hroom p, ?_⟩
    · rw [appendKey_room b hroom]
    · rw [appendKey_room b hroom]
  · rw [exec_kpush_idle b hp, appendKey_full b (by omega)]

/-- Settles O39: the start of the rounds, and what one round does to the accumulator and to each entry. -/
theorem keyScheduleRound : Obligations.KeyScheduleRound := by
  refine ⟨fun kx => ⟨tableGet_identityTable, rfl, fun _ => rfl⟩, fun S J I key =>
    ⟨ksaRound_acc_toNat S J I key, ?_, ?_, fun k hI hJ => ?_, ksaRound_table_of_acc_eq⟩⟩
  · rw [tableGet_ksaRound, if_pos rfl]
    split_ifs with hI
    · rw [← hI]
    · rfl
  · rw [tableGet_ksaRound, if_pos rfl]
  · rw [tableGet_ksaRound, if_neg hJ, if_neg hI]

end Sys2Proof.Machine
end

section

/-! ## The statements of 41_prga.md: the keystream step (R111 to R116), the command DATA (R120), and the index X as a
count of the DATA commands of an invocation (R122). -/

namespace Sys2Proof.Machine

open Sys2Proof.Spec

/-! ### The keystream step (R111 to R114) -/

section Advance
variable (c : CipherState)

theorem prgaAdvance_X : (prgaAdvance c).X = c.X + 1 := rfl

theorem prgaAdvance_Y : (prgaAdvance c).Y = c.Y + tableGet c.S (prgaAdvance c).X := rfl

/-- The swap of step 3 exchanges the entries at the new X and Y (R113). -/
theorem tableGet_prgaAdvance (k : Byte) :
    tableGet (prgaAdvance c).S k =
      if k = (prgaAdvance c).Y then tableGet c.S (prgaAdvance c).X
      else if k = (prgaAdvance c).X then tableGet c.S (prgaAdvance c).Y else tableGet c.S k :=
  tableGet_tableSwap c.S _ _ k

theorem tableGet_prgaAdvance_Y :
    tableGet (prgaAdvance c).S (prgaAdvance c).Y = tableGet c.S (prgaAdvance c).X := by
  rw [tableGet_prgaAdvance, if_pos rfl]

/-- Also where X' = Y', when the two entries are one and the swap does nothing (R10). -/
theorem tableGet_prgaAdvance_X :
    tableGet (prgaAdvance c).S (prgaAdvance c).X = tableGet c.S (prgaAdvance c).Y := by
  rw [tableGet_prgaAdvance, if_pos rfl]
  split_ifs with hXY
  · rw [hXY]
  · rfl

theorem tableGet_prgaAdvance_of_ne {k : Byte} (hX : k ≠ (prgaAdvance c).X) (hY : k ≠ (prgaAdvance c).Y) :
    tableGet (prgaAdvance c).S k = tableGet c.S k := by
  rw [tableGet_prgaAdvance, if_neg hY, if_neg hX]

/-- After `n` steps X has grown by `n`, modulo 256 (R111). -/
theorem iterate_prgaAdvance_X (n : Nat) : (prgaAdvance^[n] c).X.toNat = (c.X.toNat + n) % 256 := by
  induction n with
  | zero => exact (Nat.mod_eq_of_lt c.X.isLt).symm
  | succ n ih =>
    rw [Function.iterate_succ_apply', prgaAdvance_X, BitVec.toNat_add, ih]
    simp [Nat.add_assoc]

end Advance

/-- X starts at 0xFF, so the `n`-th step of an invocation leaves n - 1 in it, modulo 256 (R110, R122). -/
theorem iterate_prgaAdvance_startCipher_X (t : Table) {n : Nat} (hn : 1 ≤ n) :
    (prgaAdvance^[n] (startCipher t)).X.toNat = (n - 1) % 256 := by
  rw [iterate_prgaAdvance_X, startCipher_X, BitVec.toNat_ofNat]
  omega

/-! ### The command DATA, phase by phase (R120) -/

section Data
variable {s : State} (b : Byte)

theorem exec_data_run (hp : s.PHASE = .run) :
    exec (.data b) s =
      .next (emit (b ^^^ keystreamByte (prgaAdvance s.cipher)) (s.withCipher (prgaAdvance s.cipher))) := by
  simp [exec, execData, prgaStep, hp]

theorem exec_data_idle (hp : s.PHASE = .idle) : exec (.data b) s = .next (raiseFault .phaseViolation s) := by
  simp [exec, execData, hp]

theorem exec_data_fault (hp : s.PHASE = .fault) : exec (.data b) s = .next s := by
  simp [exec, execData, hp]

end Data

theorem exec_rdst_keylen (s : State) : exec (.rdst 1#8) s = .next (emit (klenLow s) s) := rfl

/-! ### The uses of an open invocation (R144) -/

/-- A command that answers a byte, and the host's take after it: two steps, after which the response port is empty again and the
host has the byte. `c` is the cipher state the command leaves. -/
theorem run_command_take {s : State} {w : Word} {i : Instr} {rest : List HostEvent} {b : Byte} {c : CipherState}
    (hr : s.RSP = none) (hh : s.host = .command w :: .take :: rest) (hd : decode w = .ok i)
    (he : exec i (s.withHost (.take :: rest)) = .next (emit b ((s.withHost (.take :: rest)).withCipher c))) :
    Host.Core.run core 2 s =
      .next { s.withCipher c with RSP := none, host := rest, received := s.received ++ [b] } := by
  rw [run_succ 1 ((step_command_ok hr hh hd).trans he), run_succ 0 (step_take rfl), run_zero]
  rfl

/-- The block in RUN with nothing pending: its cipher state, and the moves the host has still to make. -/
structure OpenInvocation (c : CipherState) (moves : List HostEvent) (s : State) : Prop where
  phase : s.PHASE = .run
  rsp : s.RSP = none
  cipher : s.cipher = c
  host : s.host = moves

/-- START in IDLE with a key opens an invocation, with the cipher state of R110 (R102). -/
theorem step_start_openInvocation {s : State} {rest : List HostEvent} (hp : s.PHASE = .idle) (hk : 1 ≤ s.KLEN.val)
    (hr : s.RSP = none) (hh : s.host = .command 0x0300#16 :: rest) :
    ∃ t, step s = .next t ∧ OpenInvocation (startCipher (ksaHw s.KEYMEM s.KLEN)) rest t := by
  have hd : decode 0x0300#16 = .ok .start := decode_encode (i := .start) rfl
  refine ⟨_, (step_command_ok hr hh hd).trans (exec_start_opens (s := s.withHost rest) hp hk), ?_⟩
  exact { phase := rfl, rsp := hr, cipher := rfl, host := rfl }

section Uses
variable {s : State} {c : CipherState} {rest : List HostEvent}

/-- A use keeps the invocation open, and of the uses only DATA steps the keystream engine. -/
theorem run_use (u : Use) (h : OpenInvocation c (useMoves u ++ rest) s) :
    ∃ t, Host.Core.run core (useMoves u).length s = .next t ∧
      OpenInvocation (prgaAdvance^[if u.isData then 1 else 0] c) rest t := by
  obtain ⟨hp, hr, rfl, hh⟩ := h
  cases u with
  | data b =>
    refine ⟨_, run_command_take hr hh (decode_encode (i := .data b) rfl)
      (exec_data_run (s := s.withHost (.take :: rest)) b hp), ?_⟩
    exact { phase := hp, rsp := rfl, cipher := rfl, host := rfl }
  | nop =>
    have hstep : step s = .next (s.withHost rest) := step_command_ok hr hh (decode_encode (i := .nop) rfl)
    refine ⟨_, run_succ 0 hstep, ?_⟩
    exact { phase := hp, rsp := hr, cipher := rfl, host := rfl }
  | status =>
    refine ⟨_, run_command_take (c := s.cipher) hr hh (decode_encode (i := .rdst 0#8) rfl) (exec_rdst_status _), ?_⟩
    exact { phase := hp, rsp := rfl, cipher := rfl, host := rfl }
  | keylen =>
    refine ⟨_, run_command_take (c := s.cipher) hr hh (decode_encode (i := .rdst 1#8) rfl) (exec_rdst_keylen _), ?_⟩
    exact { phase := hp, rsp := rfl, cipher := rfl, host := rfl }

/-- A sequence of uses steps the keystream engine once for each DATA command among them. -/
theorem run_uses (uses : List Use) (h : OpenInvocation c (uses.flatMap useMoves ++ rest) s) :
    ∃ t, Host.Core.run core (uses.flatMap useMoves).length s = .next t ∧
      OpenInvocation (prgaAdvance^[uses.countP Use.isData] c) rest t := by
  induction uses generalizing s c with
  | nil => exact ⟨s, rfl, h⟩
  | cons u uses ih =>
    rw [List.flatMap_cons, List.append_assoc] at h
    obtain ⟨v, hv, hopen⟩ := run_use u h
    obtain ⟨t, ht, hopen⟩ := ih hopen
    refine ⟨t, ?_, ?_⟩
    · rw [List.flatMap_cons, List.length_append, run_add _ _ hv, ht]
    · rwa [List.countP_cons, Function.iterate_add_apply]

end Uses

/-! ### The obligations -/

/-- Settles O33: in RUN the state is that of `exec_data_run`, its cipher state read entry by entry; IDLE and FAULT by their
own lemmas. -/
theorem dataEffect : Obligations.DataEffect := by
  refine ⟨fun s b hp => ⟨_, exec_data_run b hp, ?_⟩, fun _ b => exec_data_idle b, fun _ b => exec_data_fault b⟩
  simp only [emit_S, emit_X, emit_Y, emit_RSP, withCipher_S, withCipher_X, withCipher_Y]
  refine ⟨?_, ?_, tableGet_prgaAdvance_X _, tableGet_prgaAdvance_Y _,
    fun k => tableGet_prgaAdvance_of_ne _, ⟨_, BitVec.toNat_add _ _, rfl⟩, rfl⟩
  · rw [prgaAdvance_X, BitVec.toNat_add]
    rfl
  · rw [prgaAdvance_Y, BitVec.toNat_add]
    rfl

/-- Settles O46: the machine's run steps the keystream engine once per DATA command (`run_uses`), from X = 0xFF. -/
theorem indexCountsTheBytes : Obligations.IndexCountsTheBytes := by
  refine ⟨fun s uses rest hp hk hr hh => ?_, fun t n => iterate_prgaAdvance_startCipher_X t⟩
  obtain ⟨u, hu, hopen⟩ := step_start_openInvocation hp hk hr hh
  obtain ⟨t, ht, hphase, hrsp, hcipher, hhost⟩ := run_uses uses hopen
  have hX : t.X = (prgaAdvance^[uses.countP Use.isData] (startCipher (ksaHw s.KEYMEM s.KLEN))).X :=
    congrArg CipherState.X hcipher
  refine ⟨t, (run_succ _ hu).trans ht, hphase, hrsp, hhost, fun hzero => ?_, fun hpos => ?_⟩
  · rw [hX, hzero, Function.iterate_zero_apply, startCipher_X]
  · rw [hX, iterate_prgaAdvance_startCipher_X _ hpos]

/-- Settles O45: in `exec_data_run` the input byte stands in the response's xor only. -/
theorem keystreamIgnoresData : Obligations.KeystreamIgnoresData :=
  fun s a b hp => ⟨s.withCipher (prgaAdvance s.cipher), keystreamByte (prgaAdvance s.cipher),
    exec_data_run a hp, exec_data_run b hp⟩

end Sys2Proof.Machine
end

section

/-! ## The statements of 42_transform_engine.md: the transform as a keystream (R130 to R136), the commands NOP, FINISH, RDST
and RST (R142 to R146), the check order (R139), the transitions of PHASE (R140), and the machine's KEY and CRYPT (R137). -/

namespace Sys2Proof.Machine

open Sys2Proof.Spec

/-! ### Missing field lemmas -/

@[simp] theorem appendKey_RSP (b : Byte) (s : State) : (appendKey b s).RSP = s.RSP := by
  unfold appendKey; split <;> rfl
@[simp] theorem appendKey_host (b : Byte) (s : State) : (appendKey b s).host = s.host := by
  unfold appendKey; split <;> rfl
@[simp] theorem appendKey_received (b : Byte) (s : State) : (appendKey b s).received = s.received := by
  unfold appendKey; split <;> rfl

/-- A rejected word leaves the block in phase FAULT: it raises its fault or is refused there (R75, R76). -/
@[simp] theorem raiseUnlessFault_PHASE (code : ErrCode) (s : State) : (raiseUnlessFault code s).PHASE = .fault := by
  by_cases hp : s.PHASE = .fault
  · rw [raiseUnlessFault_fault code hp, hp]
  · rw [raiseUnlessFault_live code hp, raiseFault_PHASE]

@[simp] theorem raiseUnlessFault_RSP (code : ErrCode) (s : State) : (raiseUnlessFault code s).RSP = s.RSP := by
  unfold raiseUnlessFault; split <;> rfl

/-! ### The transform as a keystream (R130, R135) -/

/-- Keystream byte n of an engine that starts in `c`: step 4 on the state that n + 1 advances leave (R114). -/
def keystreamFrom (c : CipherState) (n : Nat) : Byte := keystreamByte (prgaAdvance^[n + 1] c)

theorem applyKeystream_cons (c : CipherState) (b : Byte) (B : List Byte) :
    applyKeystream c (b :: B) = (b ^^^ keystreamByte (prgaAdvance c)) :: applyKeystream (prgaAdvance c) B := rfl

/-- The engine's state runs on whatever the message is, so each output byte is its input byte xor the keystream byte of its
position (R118). -/
theorem applyKeystream_getElem? (c : CipherState) (B : List Byte) (n : Nat) :
    (applyKeystream c B)[n]? = B[n]?.map fun b => b ^^^ keystreamFrom c n := by
  induction B generalizing c n with
  | nil => rfl
  | cons b B ih =>
    rw [applyKeystream_cons]
    cases n with
    | zero => rfl
    | succ n => exact ih (prgaAdvance c) n

@[simp] theorem applyKeystream_length (c : CipherState) (B : List Byte) : (applyKeystream c B).length = B.length := by
  induction B generalizing c with
  | nil => rfl
  | cons b B ih => rw [applyKeystream_cons, List.length_cons, List.length_cons, ih]

/-- The same keystream twice cancels (R132). -/
theorem applyKeystream_involutive (c : CipherState) : Function.Involutive (applyKeystream c) := by
  intro B
  refine List.ext_getElem? fun n => ?_
  rw [applyKeystream_getElem?, applyKeystream_getElem?, Option.map_map]
  simp [Function.comp_def]

theorem applyKeystream_take (c : CipherState) (B : List Byte) (n : Nat) :
    applyKeystream c (B.take n) = (applyKeystream c B).take n := by
  refine List.ext_getElem? fun i => ?_
  simp only [applyKeystream_getElem?, List.getElem?_take]
  split_ifs
  · rfl
  · rfl

theorem transform_of_ne_nil {K : List Byte} (h : K ≠ []) (B : List Byte) :
    transform K B = some (applyKeystream (startCipher (ksa K)) B) := by
  cases K with
  | nil => exact absurd rfl h
  | cons a K => rfl

theorem transform_eq_some_iff {K B C : List Byte} :
    transform K B = some C ↔ K ≠ [] ∧ applyKeystream (startCipher (ksa K)) B = C := by
  by_cases h : K = []
  · subst h
    simp [transform]
  · rw [transform_of_ne_nil h, Option.some.injEq]
    exact (and_iff_right h).symm

/-! ### The commands NOP, FINISH, RDST and RST (R142, R143, R145, R146) -/

theorem exec_rdst_other {sel : Byte} (s : State) (h : 1 < sel.toNat) :
    exec (.rdst sel) s = .next (raiseUnlessFault .reservedOperand s) := by
  have h0 : sel ≠ 0#8 := by rintro rfl; simp at h
  have h1 : sel ≠ 1#8 := by rintro rfl; simp at h
  simp [exec, execRdst, h0, h1]

theorem exec_finish_live {s : State} (hp : s.PHASE ≠ .fault) : exec .finish s = .next { s with PHASE := .idle } := by
  simp only [exec, execFinish]
  split
  · contradiction
  · rfl
  · rfl

theorem exec_finish_run {s : State} (hp : s.PHASE = .run) : exec .finish s = .next { s with PHASE := .idle } :=
  exec_finish_live (by simp [hp])

theorem exec_finish_idle {s : State} (hp : s.PHASE = .idle) : exec .finish s = .next s := by
  rw [exec_finish_live (by simp [hp]), ← hp]

theorem exec_finish_fault {s : State} (hp : s.PHASE = .fault) : exec .finish s = .next s := by
  simp [exec, execFinish, hp]

/-- The STATUS byte as a number (R29). -/
theorem statusByte_toNat (s : State) :
    (statusByte s).toNat =
      32 * (if s.KLEN.val = 256 then 1 else 0) + 4 * errNumber s.ERRCODE + phaseNumber s.PHASE := by
  have hfields : ∀ (full : BitVec 1) (err : BitVec 3) (phase : BitVec 2),
      (0#2 ++ full ++ err ++ phase).toNat = 32 * full.toNat + 4 * err.toNat + phase.toNat := by decide
  rw [statusByte, hfields, kfullBit_toNat, errBits_toNat, phaseBits_toNat]

theorem klenLow_toNat (s : State) : (klenLow s).toNat = s.KLEN.val % 256 := BitVec.toNat_ofNat _ _

/-- The two resets differ only in dead bits and in the response port (R231). -/
theorem softReset_sameToHost_hardwareReset {s : State} (h : s.RSP = none) :
    SameToHost (softReset s) (hardwareReset s) where
  phase := rfl
  errcode := rfl
  klen := rfl
  key := fun p _ hp => absurd hp (Nat.not_lt_zero p)
  cipher := fun hp => by cases hp
  rsp := h
  host := rfl
  received := rfl

/-- In FAULT a word with an opcode whose low byte is not allowed is refused (R207). -/
theorem acceptWord_reservedOperand_fault {s : State} {w : Word} (hop : w.toNat / 256 < 8)
    (hlow : ¬ legalLow (w.toNat / 256) (w.toNat % 256)) (hp : s.PHASE = .fault) : acceptWord w s = .next s := by
  rw [acceptWord_error s (decode_eq_reservedOperand hop hlow), raiseUnlessFault_fault _ hp]

/-! ### The words of the commands (R73) -/

theorem decode_eq_ok_iff {w : Word} {i : Instr} (hi : i.wellFormed = true) : decode w = .ok i ↔ w = encode i :=
  ⟨fun h => (encode_of_decode_ok h).symm, fun h => h ▸ decode_encode hi⟩

theorem acceptWord_encode {i : Instr} (s : State) (hi : i.wellFormed = true) : acceptWord (encode i) s = exec i s :=
  acceptWord_ok s (decode_encode hi)

/-- A word that decodes is of class (3) (R74). -/
theorem legalLow_of_decode_ok {w : Word} {i : Instr} (h : decode w = .ok i) :
    legalLow (w.toNat / 256) (w.toNat % 256) := by
  obtain ⟨-, hd⟩ | ⟨-, -, hd⟩ | ⟨hlegal, -⟩ := decode_class w
  · cases hd.symm.trans h
  · cases hd.symm.trans h
  · exact hlegal

/-! ### The check order (R139) -/

/-- The check that a command fails outside phase FAULT, and NONE where it fails none: checks (4) and (5) of R139. -/
def commandCause (i : Instr) (s : State) : ErrCode :=
  match i, s.PHASE with
  | .kclr, .run => .phaseViolation
  | .kpush _, .run => .phaseViolation
  | .start, .run => .phaseViolation
  | .start, .idle => if s.KLEN.val = 0 then .badKeylen else .none
  | .data _, .idle => .phaseViolation
  | _, _ => .none

/-- The first check that a word fails outside phase FAULT, and NONE where it fails none: checks (2) to (5) of R139. -/
def wordCause (w : Word) (s : State) : ErrCode :=
  match decode w with
  | .ok i => commandCause i s
  | .error r => rejectCode r

section Causes
variable {w : Word} {i : Instr} {r : Reject} {s t : State} {c : ErrCode}

theorem wordCause_ok (h : decode w = .ok i) : wordCause w s = commandCause i s := by
  simp [wordCause, h]

theorem wordCause_error (h : decode w = .error r) : wordCause w s = rejectCode r := by
  simp [wordCause, h]

/-- The opcode of a command's word (R73). -/
def opcodeNumber : Instr → Nat
  | .nop => 0
  | .kclr => 1
  | .kpush _ => 2
  | .start => 3
  | .data _ => 4
  | .finish => 5
  | .rdst _ => 6
  | .rst => 7

theorem opcode_of_decode_ok (h : decode w = .ok i) : w.toNat / 256 = opcodeNumber i := by
  rw [← opcodeOf_toNat, ← encode_of_decode_ok h]
  cases i <;> simp [encode, opcodeNumber]

/-- Of the words that decode, the word of a well-formed command decodes to that command only. -/
theorem eq_encode_iff {j : Instr} (h : decode w = .ok i) (hj : j.wellFormed = true) : w = encode j ↔ i = j := by
  rw [← decode_eq_ok_iff hj, h, Except.ok.injEq]

/-- For a command the check order asks the phase and, of START, the key (R139). -/
theorem faultOf_ok_iff (h : decode w = .ok i) (hp : s.PHASE ≠ .fault) : faultOf w s c ↔ c = commandCause i s := by
  have hlegal := legalLow_of_decode_ok h
  have hlt := Nat.not_le.2 (lt_eight_of_legalLow hlegal)
  have hstart : w = 0x0300#16 ↔ i = .start := eq_encode_iff (j := .start) h rfl
  simp only [faultOf, hlegal, hlt, hstart, not_true_eq_false, false_and, and_false, false_or, true_and]
  rw [opcode_of_decode_ok h]
  cases hphase : s.PHASE with
  | fault => exact absurd hphase hp
  | run => cases i <;> simp [commandCause, wrongPhase, opcodeNumber, hphase]
  | idle =>
    cases i with
    | start =>
      by_cases hk : s.KLEN = 0 <;> simp [commandCause, wrongPhase, opcodeNumber, hphase, hk]
    | nop | kclr | kpush _ | data _ | finish | rdst _ | rst =>
      simp [commandCause, wrongPhase, opcodeNumber, hphase]

/-- The check order has exactly one outcome for a word in IDLE or RUN (R204). -/
theorem faultOf_iff (hp : s.PHASE ≠ .fault) : faultOf w s c ↔ c = wordCause w s := by
  obtain ⟨hge, hd⟩ | ⟨hlt, hlow, hd⟩ | ⟨-, i, hd⟩ := decode_class w
  · have hlow : ¬ legalLow (w.toNat / 256) (w.toNat % 256) := fun h => absurd (lt_eight_of_legalLow h) (by omega)
    have hne : w ≠ 0x0300#16 := by rintro rfl; simp at hge
    simp [faultOf, wordCause_error hd, rejectCode, hlow, hge, hne, Nat.not_lt.2 hge]
  · have hne : w ≠ 0x0300#16 := by rintro rfl; simp [legalLow] at hlow
    simp [faultOf, wordCause_error hd, rejectCode, hlow, hne, Nat.not_le.2 hlt, hlt]
  · rw [wordCause_ok hd, faultOf_ok_iff hd hp]

/-! ### What an accepted word does, by its cause -/

/-- Outside phase FAULT a command that fails a check raises that fault, and any other stays outside phase FAULT. -/
theorem exec_live_cases (hi : i.wellFormed = true) (hlive : s.PHASE ≠ .fault) (h : exec i s = .next t) :
    (commandCause i s ≠ .none ∧ t = raiseFault (commandCause i s) s) ∨
      (commandCause i s = .none ∧ t.PHASE ≠ .fault) := by
  rcases exec_cases h with ⟨rfl, rfl⟩ | ⟨hp, -⟩ | ⟨hp, rfl, hi'⟩ | ⟨hp, rfl, b, rfl⟩ | ⟨hp, hk, rfl, rfl⟩ |
    ⟨hp, rfl, rfl⟩ | ⟨hp, b, rfl, rfl⟩ | ⟨hp, hk, rfl, rfl⟩ | ⟨hp, b, rfl, rfl⟩ | ⟨-, rfl, rfl⟩ | ⟨rfl, rfl⟩ | ⟨rfl, rfl⟩ |
    ⟨sel, rfl, h0, h1, -⟩ | ⟨rfl, rfl⟩
  · exact .inr ⟨rfl, hlive⟩ -- NOP
  · exact absurd hp hlive -- refused in FAULT
  · rcases hi' with rfl | rfl | ⟨b, rfl⟩ <;> exact .inl (by simp [commandCause, hp]) -- PHASE_VIOLATION in RUN
  · exact .inl (by simp [commandCause, hp]) -- PHASE_VIOLATION in IDLE
  · exact .inl (by simp [commandCause, hp, hk]) -- BAD_KEYLEN
  · exact .inr (by simp [commandCause, hp]) -- KCLR
  · exact .inr (by simp [commandCause, hp]) -- KPUSH
  · exact .inr (by simp [commandCause, hp, Nat.ne_of_gt hk]) -- START
  · exact .inr (by simp [commandCause, hp]) -- DATA
  · exact .inr (by simp [commandCause]) -- FINISH
  · exact .inr ⟨rfl, hlive⟩ -- RDST 0
  · exact .inr ⟨rfl, hlive⟩ -- RDST 1
  · have hsel : sel.toNat ≤ 1 := of_decide_eq_true hi -- RDST of another selector is not well-formed
    bv_omega
  · exact .inr (by simp [commandCause]) -- RST

/-- A word that fails a check raises that fault, and nothing else has changed (R205). -/
theorem acceptWord_of_wordCause_ne_none (hlive : s.PHASE ≠ .fault) (h : wordCause w s ≠ .none) :
    acceptWord w s = .next (raiseFault (wordCause w s) s) := by
  cases hd : decode w with
  | error r => rw [acceptWord_error s hd, raiseUnlessFault_live _ hlive, wordCause_error hd]
  | ok i =>
    obtain ⟨t, ht⟩ := exec_next i s
    rw [wordCause_ok hd] at h ⊢
    obtain ⟨-, rfl⟩ | ⟨hnone, -⟩ := exec_live_cases (wellFormed_of_decode_ok hd) hlive ht
    · rw [acceptWord_ok s hd, ht]
    · exact absurd hnone h

/-- A word that fails no check is a command, and its execution stays outside phase FAULT. -/
theorem acceptWord_of_wordCause_eq_none (hlive : s.PHASE ≠ .fault) (h : wordCause w s = .none) :
    ∃ i t, decode w = .ok i ∧ acceptWord w s = exec i s ∧ exec i s = .next t ∧ t.PHASE ≠ .fault := by
  cases hd : decode w with
  | error r => exact absurd (wordCause_error hd ▸ h) (rejectCode_ne_none r)
  | ok i =>
    obtain ⟨t, ht⟩ := exec_next i s
    obtain ⟨hne, -⟩ | ⟨-, hphase⟩ := exec_live_cases (wellFormed_of_decode_ok hd) hlive ht
    · exact absurd (wordCause_ok hd ▸ h) hne
    · exact ⟨i, t, rfl, acceptWord_ok s hd, ht, hphase⟩

/-- Outside phase FAULT only a word that fails a check leads into it. -/
theorem wordCause_ne_none_of_fault (hlive : s.PHASE ≠ .fault) (h : acceptWord w s = .next t) (ht : t.PHASE = .fault) :
    wordCause w s ≠ .none := by
  intro hnone
  obtain ⟨i, u, -, hexec, hu, hphase⟩ := acceptWord_of_wordCause_eq_none hlive hnone
  cases h.symm.trans (hexec.trans hu)
  exact hphase ht

/-- In phase FAULT every word but those of NOP, RDST 0, RDST 1 and RST is refused (R207). -/
theorem acceptWord_fault (hp : s.PHASE = .fault) (hnop : w ≠ encode .nop) (hstatus : w ≠ encode (.rdst 0#8))
    (hkeylen : w ≠ encode (.rdst 1#8)) (hrst : w ≠ encode .rst) : acceptWord w s = .next s := by
  cases hd : decode w with
  | error r => rw [acceptWord_error s hd, raiseUnlessFault_fault _ hp]
  | ok i =>
    rw [acceptWord_ok s hd]
    have hw := encode_of_decode_ok hd
    cases i with
    | nop => exact absurd hw.symm hnop
    | kclr => exact exec_keyCommand_fault hp (.inl rfl)
    | kpush b => exact exec_keyCommand_fault hp (.inr (.inr ⟨b, rfl⟩))
    | start => exact exec_keyCommand_fault hp (.inr (.inl rfl))
    | data b => exact exec_data_fault b hp
    | finish => exact exec_finish_fault hp
    | rdst sel =>
      have hsel : sel.toNat ≤ 1 := of_decide_eq_true (wellFormed_of_decode_ok hd)
      obtain rfl | rfl : sel = 0#8 ∨ sel = 1#8 := by bv_omega
      · exact absurd hw.symm hstatus
      · exact absurd hw.symm hkeylen
    | rst => exact absurd hw.symm hrst

/-! ### The transitions of PHASE (R140) -/

/-- What a command can do to PHASE. -/
theorem exec_phase_cases (h : exec i s = .next t) :
    t.PHASE = s.PHASE ∨
    (i = .start ∧ s.PHASE = .idle ∧ 1 ≤ s.KLEN.val ∧ t.PHASE = .run) ∨
    (i = .finish ∧ s.PHASE = .run ∧ t.PHASE = .idle) ∨
    (s.PHASE ≠ .fault ∧ t.PHASE = .fault) ∨
    (i = .rst ∧ t.PHASE = .idle) := by
  rcases exec_cases h with ⟨-, rfl⟩ | ⟨-, rfl, -⟩ | ⟨hp, rfl, -⟩ | ⟨hp, rfl, -⟩ | ⟨hp, -, rfl, -⟩ | ⟨-, rfl, -⟩ |
    ⟨-, b, rfl, -⟩ | ⟨hp, hk, hi, rfl⟩ | ⟨hp, b, -, rfl⟩ | ⟨hp, rfl, hi⟩ | ⟨-, rfl⟩ | ⟨-, rfl⟩ | ⟨sel, -, -, -, rfl⟩ |
    ⟨hi, rfl⟩
  · exact .inl rfl -- NOP
  · exact .inl rfl -- refused in FAULT
  · exact .inr (.inr (.inr (.inl ⟨by simp [hp], rfl⟩))) -- PHASE_VIOLATION in RUN
  · exact .inr (.inr (.inr (.inl ⟨by simp [hp], rfl⟩))) -- PHASE_VIOLATION in IDLE
  · exact .inr (.inr (.inr (.inl ⟨by simp [hp], rfl⟩))) -- BAD_KEYLEN
  · exact .inl rfl -- KCLR
  · exact .inl (by simp) -- KPUSH
  · exact .inr (.inl ⟨hi, hp, hk, rfl⟩) -- START
  · exact .inl rfl -- DATA
  · cases hphase : s.PHASE with -- FINISH
    | idle => exact .inl rfl
    | run => exact .inr (.inr (.inl ⟨hi, rfl, rfl⟩))
    | fault => exact absurd hphase hp
  · exact .inl rfl -- RDST 0
  · exact .inl rfl -- RDST 1
  · by_cases hp : s.PHASE = .fault -- RDST of another selector
    · exact .inl ((raiseUnlessFault_PHASE _ _).trans hp.symm)
    · exact .inr (.inr (.inr (.inl ⟨hp, raiseUnlessFault_PHASE _ _⟩)))
  · exact .inr (.inr (.inr (.inr ⟨hi, rfl⟩))) -- RST

/-- What an accepted word can do to PHASE: the transitions of the table (R140). -/
theorem acceptWord_phase_cases (h : acceptWord w s = .next t) :
    t.PHASE = s.PHASE ∨
    (w = 0x0300#16 ∧ s.PHASE = .idle ∧ 1 ≤ s.KLEN.val ∧ t.PHASE = .run) ∨
    (w = 0x0500#16 ∧ s.PHASE = .run ∧ t.PHASE = .idle) ∨
    (s.PHASE ≠ .fault ∧ t.PHASE = .fault) ∨
    (w = 0x0700#16 ∧ t.PHASE = .idle) := by
  obtain ⟨i, hd, hi⟩ | ⟨r, -, rfl⟩ := acceptWord_cases h
  · have hw := encode_of_decode_ok hd
    obtain hphase | ⟨rfl, hstart⟩ | ⟨rfl, hfinish⟩ | hfault | ⟨rfl, hrst⟩ := exec_phase_cases hi
    · exact .inl hphase
    · exact .inr (.inl ⟨hw.symm, hstart⟩)
    · exact .inr (.inr (.inl ⟨hw.symm, hfinish⟩))
    · exact .inr (.inr (.inr (.inl hfault)))
    · exact .inr (.inr (.inr (.inr ⟨hw.symm, hrst⟩)))
  · by_cases hp : s.PHASE = .fault
    · exact .inl ((raiseUnlessFault_PHASE _ _).trans hp.symm)
    · exact .inr (.inr (.inr (.inl ⟨hp, raiseUnlessFault_PHASE _ _⟩)))

/-! ### The response byte of an accepted word (R144) -/

/-- The commands that leave a byte on an empty response port: DATA in RUN, RDST 0 and RDST 1. -/
theorem exec_response_iff (hr : s.RSP = none) (h : exec i s = .next t) :
    t.RSP.isSome = true ↔ ((∃ b, i = .data b) ∧ s.PHASE = .run) ∨ i = .rdst 0#8 ∨ i = .rdst 1#8 := by
  rcases exec_cases h with ⟨rfl, rfl⟩ | ⟨hp, rfl, hi⟩ | ⟨hp, rfl, hi⟩ | ⟨hp, rfl, b, rfl⟩ | ⟨hp, -, rfl, rfl⟩ |
    ⟨hp, rfl, rfl⟩ | ⟨hp, b, rfl, rfl⟩ | ⟨hp, -, rfl, rfl⟩ | ⟨hp, b, rfl, rfl⟩ | ⟨-, rfl, rfl⟩ | ⟨rfl, rfl⟩ |
    ⟨rfl, rfl⟩ | ⟨sel, rfl, h0, h1, rfl⟩ | ⟨rfl, rfl⟩
  · simp [hr] -- NOP
  · rcases hi with rfl | rfl | rfl | ⟨b, rfl⟩ | ⟨b, rfl⟩ <;> simp [hr, hp] -- refused in FAULT
  · rcases hi with rfl | rfl | ⟨b, rfl⟩ <;> simp [hr] -- PHASE_VIOLATION in RUN
  · simp [hr, hp] -- PHASE_VIOLATION in IDLE
  · simp [hr] -- BAD_KEYLEN
  · simp [hr] -- KCLR
  · simp [hr] -- KPUSH
  · simp [hr] -- START
  · simp [hp] -- DATA
  · simp [hr] -- FINISH
  · simp -- RDST 0
  · simp -- RDST 1
  · simp [hr, h0, h1] -- RDST of another selector
  · simp [hr] -- RST

end Causes

/-! ### Runs that never enter phase FAULT (R209) -/

/-- `n` steps lead from `s` to `t`, and no state on the way, both ends included, is in phase FAULT. -/
inductive CleanRun : Nat → State → State → Prop
  | refl {s : State} : NoFault s → CleanRun 0 s s
  | step {n : Nat} {s t u : State} : NoFault s → step s = .next t → CleanRun n t u → CleanRun (n + 1) s u

section CleanRun
variable {m n : Nat} {s t u : State}

theorem CleanRun.run (h : CleanRun n s t) : Host.Core.run core n s = .next t := by
  induction h with
  | refl _ => rfl
  | step _ hstep _ ih => rw [run_succ _ hstep, ih]

theorem CleanRun.noFault (h : CleanRun n s t) (hm : m ≤ n) (hu : Host.Core.run core m s = .next u) : NoFault u := by
  induction h generalizing m with
  | refl hs =>
    obtain rfl : m = 0 := by omega
    cases hu
    exact hs
  | step hs hstep _ ih =>
    cases m with
    | zero => cases hu; exact hs
    | succ m =>
      rw [run_succ m hstep] at hu
      exact ih (by omega) hu

theorem CleanRun.trans (h : CleanRun m s t) (h' : CleanRun n t u) : CleanRun (m + n) s u := by
  induction h with
  | refl _ => rwa [Nat.zero_add]
  | step hs hstep _ ih =>
    rw [Nat.succ_add]
    exact .step hs hstep (ih h')

/-- A single step between two states outside phase FAULT. -/
theorem CleanRun.single (hs : NoFault s) (hstep : Machine.step s = .next t) (ht : NoFault t) : CleanRun 1 s t :=
  .step hs hstep (.refl ht)

end CleanRun

/-- The block in IDLE with nothing pending: the code in ERRCODE, the bytes the host has taken, and the moves it has still to
make. -/
structure IdleBlock (err : ErrCode) (received : List Byte) (moves : List HostEvent) (s : State) : Prop where
  phase : s.PHASE = .idle
  rsp : s.RSP = none
  errcode : s.ERRCODE = err
  received : s.received = received
  host : s.host = moves

theorem IdleBlock.noFault {err : ErrCode} {received : List Byte} {moves : List HostEvent} {s : State}
    (h : IdleBlock err received moves s) : NoFault s := by
  simp [NoFault, h.phase]

/-! ### KEY: the machine loads the key (R80, R100, R101) -/

/-- KEYMEM and KLEN hold the first 256 bytes of the key `K`. -/
structure HoldsKey (K : List Byte) (keymem : Table) (klen : Fin 257) : Prop where
  length : klen.val = min K.length 256
  byte : ∀ p : Nat, p < klen.val → keymem[p]? = K[p]?

theorem holdsKey_nil (keymem : Table) : HoldsKey [] keymem 0 := ⟨rfl, fun p hp => absurd hp (Nat.not_lt_zero p)⟩

/-- KPUSH appends its byte to the key held, or drops it where 256 bytes are held already (R101). -/
theorem appendKey_holdsKey {K : List Byte} {s : State} (b : Byte) (h : HoldsKey K s.KEYMEM s.KLEN) :
    HoldsKey (K ++ [b]) (appendKey b s).KEYMEM (appendKey b s).KLEN := by
  obtain ⟨hlen, hbyte⟩ := h
  by_cases hroom : s.KLEN.val < 256
  · have hklen : (appendKey b s).KLEN.val = s.KLEN.val + 1 := by rw [appendKey_room b hroom]
    have hK : s.KLEN.val = K.length := by omega
    refine ⟨by rw [hklen, List.length_append, List.length_singleton]; omega, fun p hp => ?_⟩
    rw [appendKey_getElem? b hroom, List.getElem?_append, ← hK]
    split_ifs with hpos hlt hlt
    · omega
    · simp [hpos]
    · exact hbyte p hlt
    · omega
  · rw [appendKey_full b hroom]
    refine ⟨by rw [List.length_append]; omega, fun p hp => ?_⟩
    rw [List.getElem?_append_left (by omega), hbyte p hp]

section Key
variable {err : ErrCode} {received : List Byte} {rest : List HostEvent} {s : State}

theorem step_kclr_idleBlock (h : IdleBlock err received (.command (encode .kclr) :: rest) s) :
    ∃ t, step s = .next t ∧ IdleBlock err received rest t ∧ HoldsKey [] t.KEYMEM t.KLEN := by
  obtain ⟨hp, hr, he, hrec, hh⟩ := h
  refine ⟨_, (step_command_ok hr hh (decode_encode rfl)).trans (exec_kclr_idle (s := s.withHost rest) hp), ?_, ?_⟩
  · exact { phase := hp, rsp := hr, errcode := he, received := hrec, host := rfl }
  · exact holdsKey_nil _

theorem step_kpush_idleBlock {K : List Byte} {b : Byte}
    (h : IdleBlock err received (.command (encode (.kpush b)) :: rest) s) (hk : HoldsKey K s.KEYMEM s.KLEN) :
    ∃ t, step s = .next t ∧ IdleBlock err received rest t ∧ HoldsKey (K ++ [b]) t.KEYMEM t.KLEN := by
  obtain ⟨hp, hr, he, hrec, hh⟩ := h
  refine ⟨_, (step_command_ok hr hh (decode_encode rfl)).trans (exec_kpush_idle (s := s.withHost rest) b hp), ?_, ?_⟩
  · exact { phase := by simpa, rsp := by simpa, errcode := by simpa, received := by simpa, host := by simp }
  · exact appendKey_holdsKey (s := s.withHost rest) b hk

/-- The KPUSH commands of `K`, on a block that already holds `P`. -/
theorem cleanRun_kpushes (K : List Byte) {P : List Byte}
    (h : IdleBlock err received ((K.map fun b => .command (encode (.kpush b))) ++ rest) s)
    (hk : HoldsKey P s.KEYMEM s.KLEN) :
    ∃ t, CleanRun K.length s t ∧ IdleBlock err received rest t ∧ HoldsKey (P ++ K) t.KEYMEM t.KLEN := by
  induction K generalizing s P with
  | nil => exact ⟨s, .refl h.noFault, h, by rwa [List.append_nil]⟩
  | cons b K ih =>
    obtain ⟨u, hstep, hu, hku⟩ := step_kpush_idleBlock h hk
    obtain ⟨t, hrun, ht, hkt⟩ := ih hu hku
    exact ⟨t, .step h.noFault hstep hrun, ht, by rwa [List.append_assoc] at hkt⟩

/-- KEY in IDLE loads the key, whatever key was held before (R80). -/
theorem cleanRun_key (K : List Byte) (h : IdleBlock err received (keyMoves K ++ rest) s) :
    ∃ t, CleanRun (K.length + 1) s t ∧ IdleBlock err received rest t ∧ HoldsKey K t.KEYMEM t.KLEN := by
  obtain ⟨u, hstep, hu, hku⟩ := step_kclr_idleBlock h
  obtain ⟨t, hrun, ht, hkt⟩ := cleanRun_kpushes K hu hku
  exact ⟨t, .step h.noFault hstep hrun, ht, hkt⟩

end Key

/-- The key bytes START reads are those of `K`, of which the schedule sees the first 256 (R99, R102). -/
theorem HoldsKey.ksaHw_eq {K : List Byte} {keymem : Table} {klen : Fin 257} (h : HoldsKey K keymem klen) :
    ksaHw keymem klen = ksa (K.take 256) := by
  have hloaded : keymem.toList.take klen.val = K.take 256 := by
    refine List.ext_getElem? fun p => ?_
    have hlen := h.length
    have hbyte := h.byte p
    rw [List.getElem?_take, List.getElem?_take]
    by_cases hp : p < klen.val
    · rw [if_pos hp, if_pos (by omega), ← hbyte hp, Vector.getElem?_toList]
    · rw [if_neg hp]
      split_ifs with hp256
      · rw [List.getElem?_eq_none (by omega)]
      · rfl
  rw [ksaHw_eq_ksa, hloaded]

theorem ksa_take_256 (K : List Byte) : ksa (K.take 256) = ksa K := by
  by_cases h : 256 ≤ K.length
  · refine (ksa_congr_of_long h (by simp [h]) fun p _ hp => ?_).symm
    rw [List.getElem?_take_of_lt (by omega)]
  · rw [List.take_of_length_le (by omega)]

/-! ### CRYPT: the machine computes the transform (R80, R130, R137) -/

/-- A DATA command in RUN and the take of its response byte: two steps. -/
theorem cleanRun_dataByte (b : Byte) {s : State} {rest : List HostEvent} (hp : s.PHASE = .run) (hr : s.RSP = none)
    (hh : s.host = .command (encode (.data b)) :: .take :: rest) :
    CleanRun 2 s { s.withCipher (prgaAdvance s.cipher) with
      host := rest, received := s.received ++ [b ^^^ keystreamByte (prgaAdvance s.cipher)] } := by
  have hclean : s.PHASE ≠ .fault := by simp [hp]
  have hdata := (step_command_ok hr hh (decode_encode (i := .data b) rfl)).trans
    (exec_data_run (s := s.withHost (.take :: rest)) b hp)
  have hend : ({ s.withCipher (prgaAdvance s.cipher) with
      RSP := none, host := rest, received := s.received ++ [b ^^^ keystreamByte (prgaAdvance s.cipher)] } : State) =
      { s.withCipher (prgaAdvance s.cipher) with
        host := rest, received := s.received ++ [b ^^^ keystreamByte (prgaAdvance s.cipher)] } := by
    rw [← hr]
    rfl
  rw [← hend]
  exact .step hclean hdata (.single hclean (step_take rfl) hclean)

/-- The DATA commands of a message in RUN, each response taken: the host receives the message through the keystream
engine. -/
theorem cleanRun_data (B : List Byte) {s : State} {rest : List HostEvent} (hp : s.PHASE = .run) (hr : s.RSP = none)
    (hh : s.host = dataMoves B ++ rest) :
    CleanRun (2 * B.length) s { s.withCipher (prgaAdvance^[B.length] s.cipher) with
      host := rest, received := s.received ++ applyKeystream s.cipher B } := by
  induction B generalizing s with
  | nil =>
    obtain rfl : s.host = rest := hh
    simpa [applyKeystream] using CleanRun.refl (s := s) (by simp [NoFault, hp])
  | cons b B ih =>
    have hrun := (cleanRun_dataByte b hp hr hh).trans (ih hp hr rfl)
    rw [List.append_assoc] at hrun
    rw [List.length_cons, Nat.mul_succ, Nat.add_comm]
    exact hrun

theorem step_finish_run {s : State} {rest : List HostEvent} (hp : s.PHASE = .run) (hr : s.RSP = none)
    (hh : s.host = .command (encode .finish) :: rest) : step s = .next { s with PHASE := .idle, host := rest } :=
  (step_command_ok hr hh (decode_encode rfl)).trans (exec_finish_run (s := s.withHost rest) hp)

/-- CRYPT in IDLE with a key: the host receives the message through the engine that START sets up, and the key stays
loaded (R80, R102, R142). -/
theorem cleanRun_crypt (B : List Byte) {err : ErrCode} {received : List Byte} {rest : List HostEvent} {s : State}
    (h : IdleBlock err received (cryptMoves B ++ rest) s) (hk : 1 ≤ s.KLEN.val) :
    ∃ t, CleanRun (2 * B.length + 2) s t ∧
      IdleBlock err (received ++ applyKeystream (startCipher (ksaHw s.KEYMEM s.KLEN)) B) rest t ∧
      t.KEYMEM = s.KEYMEM ∧ t.KLEN = s.KLEN := by
  have hclean := h.noFault
  obtain ⟨hp, hr, he, rfl, hh⟩ := h
  have hhost : s.host = .command (encode .start) :: (dataMoves B ++ .command (encode .finish) :: rest) := by
    simp [hh, cryptMoves]
  have hstart := (step_command_ok hr hhost (decode_encode rfl)).trans (exec_start_opens hp hk)
  have hdata := cleanRun_data B (s := { s with
    S := ksaHw s.KEYMEM s.KLEN, X := 0xFF#8, Y := 0xFF#8, PHASE := .run,
    host := dataMoves B ++ .command (encode .finish) :: rest }) rfl hr rfl
  refine ⟨_, .step hclean hstart (hdata.trans (.single ?_ (step_finish_run rfl hr rfl) ?_)), ?_, rfl, rfl⟩
  · simp [NoFault]
  · simp [NoFault]
  · exact { phase := rfl, rsp := hr, errcode := he, received := rfl, host := rfl }

/-! ### The obligations -/

/-- Settles O47: the keystream does not depend on the message, so it cancels. -/
theorem transformIsItsOwnInverse : Obligations.TransformIsItsOwnInverse := by
  intro K B C h
  obtain ⟨hK, rfl⟩ := transform_eq_some_iff.1 h
  rw [transform_of_ne_nil hK, applyKeystream_involutive]

/-- Settles O48: the engine answers one byte for each of the message. -/
theorem transformKeepsLength : Obligations.TransformKeepsLength := by
  refine ⟨fun K B C h => ?_, fun K hK => transform_of_ne_nil hK []⟩
  obtain ⟨-, rfl⟩ := transform_eq_some_iff.1 h
  exact applyKeystream_length _ B

/-- Settles O49: the keystream is that of the engine which the key's table starts. -/
theorem outputByteDependsOnKeyAndItsInputByte : Obligations.OutputByteDependsOnKeyAndItsInputByte := by
  refine ⟨fun K hK => ⟨keystreamFrom (startCipher (ksa K)), fun B =>
    ⟨_, transform_of_ne_nil hK B, applyKeystream_getElem? _ B⟩⟩, fun K B C n h => ?_⟩
  obtain ⟨hK, rfl⟩ := transform_eq_some_iff.1 h
  rw [transform_of_ne_nil hK, applyKeystream_take]

/-- Settles O50: only the empty key has no transform, and `exec_start_noKey` is START's fault. -/
theorem transformIsDefinedForEveryKey : Obligations.TransformIsDefinedForEveryKey := by
  refine ⟨fun K B => ⟨fun ⟨C, h⟩ => ?_, fun hK => ⟨_, transform_of_ne_nil hK B⟩⟩, fun s => exec_start_noKey⟩
  obtain ⟨hK, -⟩ := transform_eq_some_iff.1 h
  exact hK

/-- Settles O20: outside phase FAULT by the cause of the word, in phase FAULT by its own table. -/
theorem checkOrderOfEveryWord : Obligations.CheckOrderOfEveryWord := by
  refine fun w s => ⟨fun hp => ⟨?_, ?_, ?_, ?_, acceptWord_fault hp⟩, fun hp =>
    ⟨wordCause w s, (faultOf_iff hp).2 rfl, acceptWord_of_wordCause_ne_none hp, acceptWord_of_wordCause_eq_none hp⟩⟩
  · rintro rfl; exact acceptWord_encode (i := .nop) s rfl
  · rintro rfl; exact acceptWord_encode (i := .rdst 0#8) s rfl
  · rintro rfl; exact acceptWord_encode (i := .rdst 1#8) s rfl
  · rintro rfl; exact acceptWord_encode (i := .rst) s rfl

/-- Settles O25: only words and resets change PHASE, and a word as `acceptWord_phase_cases` says; the other way round, each
transition of the table is what its command, its cause or its reset does. -/
theorem phaseTransitionsAreTheTable : Obligations.PhaseTransitionsAreTheTable := by
  refine ⟨fun s t h hne => ?_, fun s rest hh => ⟨_, step_reset hh, rfl⟩, fun s w rest ⟨hr, hh⟩ => ?_⟩
  · obtain ⟨-, rfl⟩ | ⟨w, rest, hr, hh, hw⟩ | ⟨rest, -, rfl⟩ | ⟨rest, he, rfl⟩ := step_cases h
    · exact absurd rfl hne
    · refine .inr ⟨w, rest, ⟨hr, hh⟩, ?_⟩
      obtain hphase | hstart | hfinish | ⟨hlive, hfault⟩ | hrst := acceptWord_phase_cases hw
      · exact absurd hphase hne
      · exact .inl hstart
      · exact .inr (.inl hfinish)
      · have hcause : faultOf w s (wordCause w (s.withHost rest)) := (faultOf_iff (s := s.withHost rest) hlive).2 rfl
        exact .inr (.inr (.inl ⟨hlive, hfault, _, hcause, wordCause_ne_none_of_fault hlive hw hfault⟩))
      · exact .inr (.inr (.inr hrst))
    · exact absurd (takeResponse_PHASE _) hne
    · exact .inl ⟨rfl, rest, he⟩
  · rw [step_command hr hh]
    obtain ⟨t, ht⟩ := acceptWord_next w (s.withHost rest)
    refine ⟨t, ht, ?_, ?_, fun c hlive hfault hc => ?_, ?_⟩
    · rintro rfl hp hk
      cases ht.symm.trans ((acceptWord_encode (i := .start) _ rfl).trans
        (exec_start_opens (s := s.withHost rest) hp hk))
      rfl
    · rintro rfl hlive
      cases ht.symm.trans ((acceptWord_encode (i := .finish) _ rfl).trans
        (exec_finish_live (s := s.withHost rest) hlive))
      rfl
    · obtain rfl := (faultOf_iff (s := s.withHost rest) hlive).1 hfault
      cases ht.symm.trans (acceptWord_of_wordCause_ne_none (s := s.withHost rest) hlive hc)
      rfl
    · rintro rfl
      cases ht.symm.trans (acceptWord_encode (i := .rst) (s.withHost rest) rfl)
      rfl

/-- Settles O26: of the transitions of the table only START's leads into RUN. -/
theorem onlyStartOpensAnInvocation : Obligations.OnlyStartOpensAnInvocation := by
  intro s t hnotRun h hrun
  obtain ⟨htable, -⟩ := phaseTransitionsAreTheTable
  obtain ⟨hidle, -⟩ | ⟨w, rest, hpres, ⟨rfl, hp, hk, -⟩ | ⟨-, -, hidle⟩ | ⟨-, hfault, -⟩ | ⟨-, hidle⟩⟩ :=
    htable s t h fun heq => hnotRun (heq.symm.trans hrun)
  · cases hidle.symm.trans hrun
  · obtain ⟨hr, hh⟩ := hpres
    rw [step_command_ok hr hh (decode_encode (i := .start) rfl), exec_start_opens (s := s.withHost rest) hp hk] at h
    obtain rfl := Host.Outcome.next.inj h
    exact ⟨rest, ⟨hr, hh⟩, hp, hk, ksaHw_eq_ksa _ _, rfl, rfl⟩
  · cases hidle.symm.trans hrun
  · cases hfault.symm.trans hrun
  · cases hidle.symm.trans hrun

/-- Settles O28: the commands that answer a byte (`exec_response_iff`), read off their words; a rejected word answers
none. -/
theorem oneResponsePerDataAndReadStatus : Obligations.OneResponsePerDataAndReadStatus := by
  intro s t w hr h
  obtain ⟨i, hd, hi⟩ | ⟨r, hd, rfl⟩ := acceptWord_cases h
  · have hdata : (∃ b, i = .data b) ↔ w.toNat / 256 = 4 := by
      rw [opcode_of_decode_ok hd]
      cases i <;> simp [opcodeNumber]
    have hstatus : w = 0x0600#16 ↔ i = .rdst 0#8 := eq_encode_iff (j := .rdst 0#8) hd rfl
    have hkeylen : w = 0x0601#16 ↔ i = .rdst 1#8 := eq_encode_iff (j := .rdst 1#8) hd rfl
    rw [exec_response_iff hr hi, hdata, hstatus, hkeylen]
  · -- a rejected word answers no byte, and none of the three words is rejected
    have hlow : ¬ legalLow (w.toNat / 256) (w.toNat % 256) := fun hlegal => by
      obtain ⟨i, hi⟩ := decode_isCommand hlegal
      cases hd.symm.trans hi
    have hdata : w.toNat / 256 ≠ 4 := fun hop => hlow (by simp [legalLow, hop])
    have hstatus : w ≠ 0x0600#16 := by rintro rfl; exact hlow (by simp [legalLow])
    have hkeylen : w ≠ 0x0601#16 := by rintro rfl; exact hlow (by simp [legalLow])
    simp [hr, hdata, hstatus, hkeylen]

/-- Settles O35: the two bytes read as numbers, and the selectors above 1 as reserved operands. -/
theorem rdstEffect : Obligations.RdstEffect := by
  refine ⟨fun s => ⟨_, exec_rdst_status s, statusByte_toNat s⟩, fun s => ⟨_, exec_rdst_keylen s, klenLow_toNat s⟩,
    fun s sel hsel => ⟨fun hp => ?_, fun hp => ?_⟩, fun s w hop hlow => ?_⟩
  · rw [exec_rdst_other s hsel, raiseUnlessFault_live _ hp]
    rfl
  · rw [exec_rdst_other s hsel, raiseUnlessFault_fault _ hp]
  · have hillegal : ¬ legalLow (w.toNat / 256) (w.toNat % 256) := by simp [legalLow, hop, hlow]
    exact ⟨acceptWord_reservedOperand_live (by omega) hillegal, acceptWord_reservedOperand_fault (by omega) hillegal⟩

/-- Settles O51: KEY leaves the key of the host in KEYMEM and KLEN (`cleanRun_key`), each CRYPT answers its message through
the engine of that key (`cleanRun_crypt`), and no state on the way is in phase FAULT. -/
theorem keyThenCryptComputesTransform : Obligations.KeyThenCryptComputesTransform := by
  intro s K B B2 rest hK hp hr hh
  have hs : IdleBlock s.ERRCODE s.received (keyMoves K ++ (cryptMoves B ++ (cryptMoves B2 ++ rest))) s :=
    { phase := hp, rsp := hr, errcode := rfl, received := rfl, host := by simp [hh] }
  obtain ⟨u, hkey, hu, hholds⟩ := cleanRun_key K hs
  have hpos : 1 ≤ u.KLEN.val := by
    have := List.length_pos_iff.2 hK
    have := hholds.length
    omega
  have htable : ksaHw u.KEYMEM u.KLEN = ksa K := hholds.ksaHw_eq.trans (ksa_take_256 K)
  obtain ⟨t, hcrypt, ht, hkeymem, hklen⟩ := cleanRun_crypt B hu hpos
  obtain ⟨t2, hcrypt2, ht2, hkeymem2, hklen2⟩ := cleanRun_crypt B2 ht (by rwa [hklen])
  rw [hkeymem, hklen, htable] at ht2
  rw [htable] at ht
  have hrun : CleanRun (K.length + 2 * B.length + 3) s t := by
    convert hkey.trans hcrypt using 1
    omega
  have htake : K.take 256 ≠ [] := by simp [hK]
  refine ⟨t, t2, _, _, transform_of_ne_nil hK B, ?_, transform_of_ne_nil hK B2, applyKeystream_length _ B,
    hrun.run, ht.received, ht.phase, ht.errcode, ht.rsp, ?_, ?_, hcrypt2.run, ?_, ht2.phase, ht2.rsp, hklen2, hkeymem2,
    ht2.host, fun n v => (hrun.trans hcrypt2).noFault⟩
  · rw [transform_of_ne_nil htake, ksa_take_256]
  · rw [hklen, hholds.length]
  · rw [hklen, hkeymem]
    exact hholds.byte
  · rw [ht2.received, ht.received]

/-- Settles O10: the step is a wait, which answers the same state. -/
theorem waitsWithoutMoves : Obligations.WaitsWithoutMoves :=
  fun s n hh => run_stay (step_wait (by rw [hh, nextEvent_nil])) n

/-- Settles O16: what the two resets leave different is dead. -/
theorem softResetLooksLikeHardwareReset : Obligations.SoftResetLooksLikeHardwareReset :=
  fun _ hr => ⟨_, rfl, softReset_sameToHost_hardwareReset hr⟩

/-- Settles O29: NOP is the identity, and its opcode allows the low byte 0 only. -/
theorem nopEffect : Obligations.NopEffect :=
  ⟨fun _ => rfl, fun _ _ hop hlow => acceptWord_reservedOperand_live (by omega) (by simp [legalLow, hop, hlow])⟩

/-- Settles O34, phase by phase. -/
theorem finishEffect : Obligations.FinishEffect :=
  ⟨fun _ => exec_finish_run, fun _ => exec_finish_idle, fun _ => exec_finish_fault,
    fun _ _ hop hlow => acceptWord_reservedOperand_live (by omega) (by simp [legalLow, hop, hlow])⟩

/-- Settles O37: the effect is `softReset`, its opcode allows the low byte 0 only, and O16 compares the two resets. -/
theorem rstEffect : Obligations.RstEffect := by
  refine ⟨fun _ => rfl, fun s w hop hlow => ?_, softResetLooksLikeHardwareReset⟩
  have hillegal : ¬ legalLow (w.toNat / 256) (w.toNat % 256) := by simp [legalLow, hop, hlow]
  exact ⟨acceptWord_reservedOperand_live (by omega) hillegal, acceptWord_reservedOperand_fault (by omega) hillegal⟩

end Sys2Proof.Machine
end

section

/-! PROOFS of the family 43_collaborators: key validation and generation (R172 to R174, R182), hexadecimal and Base64 text
(R177 to R181), and what `encode` and `decode` make of them (R185, R186). -/

namespace Sys2Proof.Machine

open Sys2Proof.Spec

/-! ### Key validation and generation (R172 to R174, R182) -/

theorem charOfByte_injective : Function.Injective fun b : Byte => Char.ofNat b.toNat := by
  have toNat_char (b : Byte) : (Char.ofNat b.toNat).toNat = b.toNat := by
    have := b.isLt
    exact (Char.toNat_ofNat _).trans (if_pos (Or.inl (by omega)))
  intro a b h
  exact BitVec.eq_of_toNat_eq (by rw [← toNat_char a, ← toNat_char b]; exact congrArg Char.toNat h)

/-- The model's list of punctuation bytes is the list of the ten characters, byte for byte (`\x22` is the double quote). -/
theorem isPunctuation_iff {b : Byte} :
    isPunctuation b = true ↔ Char.ofNat b.toNat ∈ ['_', '=', '&', '\x22', '.', '+', '-', '*', '?', '\''] := by
  rw [isPunctuation, decide_eq_true_iff]
  exact (List.mem_map_of_injective charOfByte_injective).symm

theorem isAlphanumeric_iff {b : Byte} :
    isAlphanumeric b = true ↔
      (48 ≤ b.toNat ∧ b.toNat ≤ 57) ∨ (65 ≤ b.toNat ∧ b.toNat ≤ 90) ∨ (97 ≤ b.toNat ∧ b.toNat ≤ 122) := by
  simp only [isAlphanumeric, Bool.or_eq_true, Bool.and_eq_true, decide_eq_true_iff, or_assoc]

theorem keyValid_iff {K : List Byte} :
    keyValid K = true ↔
      6 ≤ K.length ∧ (∃ b ∈ K, isAlphanumeric b = true) ∧ ∃ b ∈ K, isPunctuation b = true := by
  simp only [keyValid, Bool.and_eq_true, decide_eq_true_iff, List.any_eq_true, and_assoc]

section Construction
variable {K : List Byte}

theorem newCipher_of_valid (h : keyValid K = true) (mode : OutputMode) (draw : Nat) :
    newCipher K mode draw = .ok { key := K, mode := mode } := if_pos h

theorem newCipher_of_not_valid (h : ¬ keyValid K = true) (mode : OutputMode) (draw : Nat) :
    newCipher K mode draw = .error (.invalidKey (generateKey 128 draw)) := if_neg h

theorem newCipher_eq_ok_iff {mode : OutputMode} {draw : Nat} :
    newCipher K mode draw = .ok { key := K, mode := mode } ↔ keyValid K = true := by
  refine ⟨fun h => ?_, fun h => newCipher_of_valid h mode draw⟩
  by_contra hv
  rw [newCipher_of_not_valid hv] at h
  cases h

end Construction

theorem generateKey_length (length draw : Nat) : (generateKey length draw).length = length := by
  rw [generateKey, List.length_map, List.length_range]

theorem generateKey_printable {length draw : Nat} {b : Byte} (h : b ∈ generateKey length draw) :
    33 ≤ b.toNat ∧ b.toNat ≤ 126 := by
  obtain ⟨i, -, rfl⟩ := List.mem_map.1 h
  have := (Config.keyDraw (draw + i)).isLt
  rw [BitVec.toNat_ofNat]
  omega

/-! ### Bit fields -/

/-- A word cut in two and put together again. -/
theorem extractLsb'_append_rest {m n : Nat} (a : BitVec (m + n)) : a.extractLsb' n m ++ a.extractLsb' 0 n = a :=
  (BitVec.extractLsb'_append_extractLsb'_eq_extractLsb' (Nat.zero_add n).symm).trans BitVec.extractLsb'_eq_self

/-- The three cuts of a byte that hex and Base64 text make. -/
theorem byte_cuts (a : Byte) :
    @Eq Byte (a.extractLsb' 2 6 ++ a.extractLsb' 0 2) a ∧ @Eq Byte (a.extractLsb' 4 4 ++ a.extractLsb' 0 4) a ∧
      @Eq Byte (a.extractLsb' 6 2 ++ a.extractLsb' 0 6) a :=
  ⟨extractLsb'_append_rest (m := 6) (n := 2) a, extractLsb'_append_rest (m := 4) (n := 4) a,
    extractLsb'_append_rest (m := 2) (n := 6) a⟩

/-- The fields of a Base64 value that ends one byte and begins the next. -/
theorem sextet_fields_two_four (x : BitVec 2) (y : BitVec 4) :
    BitVec.extractLsb' (n := 6) 4 2 (x ++ y) = x ∧ BitVec.extractLsb' (n := 6) 0 4 (x ++ y) = y :=
  ⟨BitVec.extractLsb'_append_eq_left, BitVec.extractLsb'_append_eq_right⟩

theorem sextet_fields_four_two (x : BitVec 4) (y : BitVec 2) :
    BitVec.extractLsb' (n := 6) 2 4 (x ++ y) = x ∧ BitVec.extractLsb' (n := 6) 0 2 (x ++ y) = y :=
  ⟨BitVec.extractLsb'_append_eq_left, BitVec.extractLsb'_append_eq_right⟩

/-! ### Hexadecimal text (R178, R180, R181) -/

theorem hexDigits_getElem? (n : BitVec 4) : hexDigits[n.toNat]? = some (hexDigit n) := by
  revert n; decide

theorem hexDigit_mem (n : BitVec 4) : hexDigit n ∈ hexDigits := List.mem_of_getElem? (hexDigits_getElem? n)

@[simp] theorem hexValue_hexDigit (n : BitVec 4) : hexValue (hexDigit n) = some n := by
  revert n; decide

@[simp] theorem hexEncode_length (B : List Byte) : (hexEncode B).length = 2 * B.length := by
  induction B with
  | nil => rfl
  | cons b B ih => simp only [hexEncode, List.length_cons, ih]; omega

theorem mem_hexDigits_of_mem_hexEncode {B : List Byte} {c : Char} (h : c ∈ hexEncode B) : c ∈ hexDigits := by
  induction B with
  | nil => cases h
  | cons b B ih =>
    rw [hexEncode, List.mem_cons, List.mem_cons] at h
    obtain rfl | rfl | h := h
    · exact hexDigit_mem _
    · exact hexDigit_mem _
    · exact ih h

/-- The digits of byte n stand at 2n and 2n + 1, the high one first. -/
theorem hexEncode_getElem? {B : List Byte} {n : Nat} {b : Byte} (h : B[n]? = some b) :
    (hexEncode B)[2 * n]? = some (hexDigit (b.extractLsb' 4 4)) ∧
      (hexEncode B)[2 * n + 1]? = some (hexDigit (b.extractLsb' 0 4)) := by
  induction B generalizing n with
  | nil => cases h
  | cons a B ih =>
    cases n with
    | zero => cases h; exact ⟨rfl, rfl⟩
    | succ n => exact ih h

theorem toNat_eq_nibbles (b : Byte) : b.toNat = 16 * (b.extractLsb' 4 4).toNat + (b.extractLsb' 0 4).toNat := by
  have := b.isLt
  rw [BitVec.extractLsb'_toNat, BitVec.extractLsb'_toNat, Nat.shiftRight_eq_div_pow, Nat.shiftRight_zero]
  omega

theorem hexDecode_hexEncode (B : List Byte) : hexDecode (hexEncode B) = .ok B := by
  induction B with
  | nil => rfl
  | cons b B ih =>
    simp only [hexEncode, hexDecode, hexValue_hexDigit, ih, byte_cuts b]

/-- A pair of characters is decoded only where both are digits and the rest is decoded (R180). -/
theorem hexDecode_cons_cons_error {c d : Char} {rest : List Char}
    (h : hexValue c = none ∨ hexValue d = none ∨ hexDecode rest = .error .malformedText) :
    hexDecode (c :: d :: rest) = .error .malformedText := by
  rw [hexDecode]
  split
  next hc hd hr => simp [hc, hd, hr] at h
  next => rfl

theorem hexDecode_of_odd_length {text : List Char} (h : text.length % 2 = 1) :
    hexDecode text = .error .malformedText := by
  induction text using List.twoStepInduction with
  | nil => cases h
  | singleton c => rfl
  | cons_cons c d rest ih _ =>
    exact hexDecode_cons_cons_error (.inr (.inr (ih (by rwa [← Nat.add_mod_right]))))

theorem hexDecode_of_mem {text : List Char} {bad : Char} (hmem : bad ∈ text) (hbad : hexValue bad = none) :
    hexDecode text = .error .malformedText := by
  induction text using List.twoStepInduction with
  | nil => cases hmem
  | singleton c => rfl
  | cons_cons c d rest ih _ =>
    apply hexDecode_cons_cons_error
    rw [List.mem_cons, List.mem_cons] at hmem
    obtain rfl | rfl | hmem := hmem
    · exact .inl hbad
    · exact .inr (.inl hbad)
    · exact .inr (.inr (ih hmem))

/-- Each character with a hex value, of either case, is one of the 22 digits. -/
theorem hexValue_eq_none {c : Char}
    (h : c ∉ ['0', '1', '2', '3', '4', '5', '6', '7', '8', '9', 'a', 'b', 'c', 'd', 'e', 'f', 'A', 'B', 'C', 'D', 'E', 'F']) :
    hexValue c = none := by
  rw [← List.mem_map_of_injective (fun _ _ => Char.toNat_inj.1) (f := Char.toNat)] at h
  have hrange : ¬ (48 ≤ c.toNat ∧ c.toNat ≤ 57) ∧ ¬ (97 ≤ c.toNat ∧ c.toNat ≤ 102) ∧ ¬ (65 ≤ c.toNat ∧ c.toNat ≤ 70) := by
    simp only [List.map_cons, List.map_nil, List.mem_cons, List.not_mem_nil, or_false, not_or, Char.reduceToNat] at h
    omega
  obtain ⟨hdigit, hlower, hupper⟩ := hrange
  rw [hexValue, if_neg hdigit, if_neg hlower, if_neg fun hu => hupper ⟨hu.1, hu.2.1⟩]

/-! ### The Base64 alphabet (R177) -/

@[simp] theorem base64Value_base64Char (v : BitVec 6) : base64Value (base64Char v) = some v := by
  revert v; decide

theorem base64Char_ne {c : Char} (h : base64Value c = none) (v : BitVec 6) : base64Char v ≠ c := by
  rintro rfl
  simp at h

@[simp] theorem base64Char_ne_padding (v : BitVec 6) : base64Char v ≠ '=' := base64Char_ne (by decide) v

/-- The text consists of alphabet characters and padding. -/
theorem not_mem_base64Encode {c : Char} (hvalue : base64Value c = none) (hpad : c ≠ '=') (B : List Byte) :
    c ∉ base64Encode B := by
  have hne (v : BitVec 6) : c ≠ base64Char v := (base64Char_ne hvalue v).symm
  induction B using base64Encode.induct with
  | case1 => exact List.not_mem_nil
  | case2 a => simp [base64Encode, hne, hpad]
  | case3 a b => simp [base64Encode, hne, hpad]
  | case4 a b d rest ih => simp [base64Encode, hne, ih]

/-- The other alphabet's characters and the white space have no value. -/
theorem base64Encode_avoids {c : Char} (B : List Byte) (h : c ∈ ['-', '_'] ++ [' ', '\t', '\n', '\r']) :
    c ∉ base64Encode B := by
  have hspecial : ∀ c ∈ ['-', '_'] ++ [' ', '\t', '\n', '\r'], base64Value c = none ∧ c ≠ '=' := by
    simp [base64Value]
  exact not_mem_base64Encode (hspecial c h).1 (hspecial c h).2 B

/-- Padding fills up a last group of one or two bytes. -/
theorem padding_mem_base64Encode {B : List Byte} (h : B.length % 3 ≠ 0) : '=' ∈ base64Encode B := by
  induction B using base64Encode.induct with
  | case1 => exact absurd rfl h
  | case2 a => simp [base64Encode]
  | case3 a b => simp [base64Encode]
  | case4 a b c rest ih =>
    have hrest : rest.length % 3 ≠ 0 := by rwa [← Nat.add_mod_right]
    simp [base64Encode, ih hrest]

theorem base64Encode_length (B : List Byte) : (base64Encode B).length = 4 * ((B.length + 2) / 3) := by
  induction B using base64Encode.induct with
  | case1 => rfl
  | case2 a => simp [base64Encode]
  | case3 a b => simp [base64Encode]
  | case4 a b c rest ih => simp only [base64Encode, List.length_cons, ih]; omega

/-- Text without its padding (R177, R179). -/
def stripPadding (text : List Char) : List Char := text.filter (· ≠ '=')

@[simp] theorem stripPadding_nil : stripPadding [] = [] := rfl
@[simp] theorem stripPadding_padding (text : List Char) : stripPadding ('=' :: text) = stripPadding text := rfl
@[simp] theorem stripPadding_base64Char (v : BitVec 6) (text : List Char) :
    stripPadding (base64Char v :: text) = base64Char v :: stripPadding text :=
  List.filter_cons_of_pos (by simp)

theorem stripPadding_base64Encode_length (B : List Byte) :
    (stripPadding (base64Encode B)).length = (4 * B.length + 2) / 3 := by
  induction B using base64Encode.induct with
  | case1 => rfl
  | case2 a => simp [base64Encode]
  | case3 a b => simp [base64Encode]
  | case4 a b c rest ih =>
    simp only [base64Encode, stripPadding_base64Char, List.length_cons, ih]; omega

/-! ### Decoding Base64 text (R179, R181) -/

section Group
variable (a b c : Byte)

theorem base64Tail2_base64Char :
    base64Tail2 (base64Char (a.extractLsb' 2 6)) (base64Char (a.extractLsb' 0 2 ++ 0#4)) = .ok [a] := by
  simp [base64Tail2, sextet_fields_two_four, byte_cuts]

theorem base64Tail3_base64Char :
    base64Tail3 (base64Char (a.extractLsb' 2 6)) (base64Char (a.extractLsb' 0 2 ++ b.extractLsb' 4 4))
      (base64Char (b.extractLsb' 0 4 ++ 0#2)) = .ok [a, b] := by
  simp [base64Tail3, sextet_fields_two_four, sextet_fields_four_two, byte_cuts]

theorem base64Group_base64Char :
    base64Group (base64Char (a.extractLsb' 2 6)) (base64Char (a.extractLsb' 0 2 ++ b.extractLsb' 4 4))
      (base64Char (b.extractLsb' 0 4 ++ c.extractLsb' 6 2)) (base64Char (c.extractLsb' 0 6)) = some [a, b, c] := by
  simp [base64Group, sextet_fields_two_four, sextet_fields_four_two, byte_cuts]

end Group

/-- A group of four characters that decodes, before a text that decodes. -/
theorem base64Decode_group {c d e f : Char} {rest : List Char} {bytes more : List Byte} (hf : f ≠ '=')
    (hgroup : base64Group c d e f = some bytes) (hrest : base64Decode rest = .ok more) :
    base64Decode (c :: d :: e :: f :: rest) = .ok (bytes ++ more) := by
  rw [base64Decode, if_neg fun h => hf h.2.2, if_neg fun h => hf h.2, hgroup, hrest]

theorem base64Decode_base64Encode (B : List Byte) : base64Decode (base64Encode B) = .ok B := by
  induction B using base64Encode.induct with
  | case1 => rfl
  | case2 a => simp [base64Encode, base64Decode, base64Tail2_base64Char]
  | case3 a b => simp [base64Encode, base64Decode, base64Tail3_base64Char]
  | case4 a b c rest ih =>
    rw [base64Encode]
    exact base64Decode_group (base64Char_ne_padding _) (base64Group_base64Char a b c) ih

theorem base64Decode_stripPadding_base64Encode (B : List Byte) :
    base64Decode (stripPadding (base64Encode B)) = .ok B := by
  induction B using base64Encode.induct with
  | case1 => rfl
  | case2 a => simp [base64Encode, base64Decode, base64Tail2_base64Char]
  | case3 a b => simp [base64Encode, base64Decode, base64Tail3_base64Char]
  | case4 a b c rest ih =>
    simp only [base64Encode, stripPadding_base64Char]
    exact base64Decode_group (base64Char_ne_padding _) (base64Group_base64Char a b c) ih

section Malformed
variable {bad c d e f : Char} (hbad : base64Value bad = none)
include hbad

theorem ne_of_base64Value_eq_some {v : BitVec 6} (h : base64Value c = some v) : bad ≠ c := by
  rintro rfl
  rw [hbad] at h
  cases h

theorem base64Tail2_error (h : bad ∈ [c, d]) : base64Tail2 c d = .error .malformedText := by
  rw [base64Tail2]
  split
  next hc hd => simp [ne_of_base64Value_eq_some hbad hc, ne_of_base64Value_eq_some hbad hd] at h
  next => rfl

theorem base64Tail3_error (h : bad ∈ [c, d, e]) : base64Tail3 c d e = .error .malformedText := by
  rw [base64Tail3]
  split
  next hc hd he =>
    simp [ne_of_base64Value_eq_some hbad hc, ne_of_base64Value_eq_some hbad hd, ne_of_base64Value_eq_some hbad he] at h
  next => rfl

theorem base64Group_eq_none (h : bad ∈ [c, d, e, f]) : base64Group c d e f = none := by
  rw [base64Group]
  split
  next hc hd he hf =>
    simp [ne_of_base64Value_eq_some hbad hc, ne_of_base64Value_eq_some hbad hd, ne_of_base64Value_eq_some hbad he,
      ne_of_base64Value_eq_some hbad hf] at h
  next => rfl

/-- Every character of a text that decodes is padding or has a value (R181). -/
theorem base64Decode_of_mem (hpad : bad ≠ '=') :
    ∀ {text : List Char}, bad ∈ text → base64Decode text = .error .malformedText
  | [], h => absurd h List.not_mem_nil
  | [_], _ => rfl
  | [_, _], h => base64Tail2_error hbad h
  | [_, _, _], h => base64Tail3_error hbad h
  | c :: d :: e :: f :: rest, h => by
    rw [base64Decode]
    split_ifs with h2 h3
    · obtain ⟨rfl, rfl, rfl⟩ := h2
      exact base64Tail2_error hbad (by simpa [hpad] using h)
    · obtain ⟨rfl, rfl⟩ := h3
      exact base64Tail3_error hbad (by simpa [hpad] using h)
    · split
      next hgroup hrest =>
        obtain h | h := List.mem_append.1 (show bad ∈ [c, d, e, f] ++ rest from h)
        · rw [base64Group_eq_none hbad h] at hgroup
          cases hgroup
        · rw [base64Decode_of_mem hpad h] at hrest
          cases hrest
      next => rfl

end Malformed

/-! ### The translate flag (R177, R179) -/

/-- The translated text lacks `+`, `/` and `=`, whatever the text was. -/
theorem urlSafe_avoids {c : Char} (text : List Char) (h : c ∈ ['+', '/', '=']) : c ∉ urlSafe text := by
  intro hc
  obtain ⟨d, hd, rfl⟩ := List.mem_map.1 hc
  have hpad : d ≠ '=' := by simpa using (List.mem_filter.1 hd).2
  split_ifs at h with hplus hslash
  · exact absurd h (by decide)
  · exact absurd h (by decide)
  · simp [hplus, hslash, hpad] at h

/-- Translation keeps every other character. -/
theorem mem_urlSafe {c : Char} {text : List Char} (h : c ∈ text) (hc : c ∉ ['+', '/', '=']) : c ∈ urlSafe text := by
  simp only [List.mem_cons, List.not_mem_nil, or_false, not_or] at hc
  obtain ⟨hplus, hslash, hpad⟩ := hc
  exact List.mem_map.2 ⟨c, List.mem_filter.2 ⟨h, by simpa using hpad⟩, by rw [if_neg hplus, if_neg hslash]⟩

/-- Translation brings in no character but `-` and `_`. -/
theorem not_mem_urlSafe {c : Char} {text : List Char} (h : c ∉ text) (hc : c ∉ ['-', '_']) : c ∉ urlSafe text := by
  intro hmem
  obtain ⟨d, hd, rfl⟩ := List.mem_map.1 hmem
  split_ifs at h hc with hplus hslash
  · simp at hc
  · simp at hc
  · exact h (List.mem_filter.1 hd).1

theorem urlSafe_length (text : List Char) : (urlSafe text).length = (stripPadding text).length := List.length_map _

/-- Where no `-` or `_` stands, the substitution back changes nothing. -/
theorem urlUnsafe_eq_self {text : List Char} (h : ∀ c ∈ ['-', '_'], c ∉ text) : urlUnsafe text = text := by
  refine List.map_congr_left (fun c hc => ?_) |>.trans (List.map_id text)
  have hdash : c ≠ '-' := ne_of_mem_of_not_mem hc (h _ (by simp))
  have hunderscore : c ≠ '_' := ne_of_mem_of_not_mem hc (h _ (by simp))
  rw [if_neg hdash, if_neg hunderscore, id]

/-- The substitution back undoes the first one; the padding stays away. -/
theorem urlUnsafe_urlSafe {text : List Char} (h : ∀ c ∈ ['-', '_'], c ∉ text) :
    urlUnsafe (urlSafe text) = stripPadding text := by
  rw [urlUnsafe, urlSafe, List.map_map]
  refine List.map_congr_left (fun c hc => ?_) |>.trans (List.map_id _)
  have hmem : c ∈ text := (List.mem_filter.1 hc).1
  have hdash : c ≠ '-' := ne_of_mem_of_not_mem hmem (h _ (by simp))
  have hunderscore : c ≠ '_' := ne_of_mem_of_not_mem hmem (h _ (by simp))
  by_cases hplus : c = '+'
  · subst hplus; rfl
  by_cases hslash : c = '/'
  · subst hslash; rfl
  simp [hplus, hslash, hdash, hunderscore]

theorem dropWhitespace_eq_self {text : List Char} (h : ∀ c ∈ [' ', '\t', '\n', '\r'], c ∉ text) :
    dropWhitespace text = text := by
  refine List.filter_eq_self.2 fun c hc => ?_
  rw [decide_eq_false fun hw => h c hw hc]
  rfl

/-- A text without white space, without the other alphabet's characters and, where the flag is set, without padding is
decoded whatever the open decoder parameters are (U6, N10). -/
theorem base64Unframe_of_strict {translate : Bool} {text : List Char}
    (hwhite : ∀ c ∈ [' ', '\t', '\n', '\r'], c ∉ text) (hforeign : ∀ c ∈ foreignChars translate, c ∉ text)
    (hpad : translate = true → '=' ∉ text) :
    base64Unframe translate text = base64Decode (urlUnsafe text) := by
  have halphabet : text.all (fun c => decide (c ∉ foreignChars translate)) = true :=
    List.all_eq_true.2 fun c hc => decide_eq_true fun hf => hforeign c hf hc
  have hpadding : (!translate || text.all (fun c => decide (c ≠ '='))) = true := by
    cases translate with
    | false => rfl
    | true => exact List.all_eq_true.2 fun c hc => decide_eq_true fun he => hpad rfl (he ▸ hc)
  have haccepts : base64Accepts translate text = true := by
    rw [base64Accepts, halphabet, hpadding]; rfl
  rw [base64Unframe, dropWhitespace_eq_self hwhite, if_pos haccepts]

/-- White space apart, no text with a character outside both alphabets decodes (R181). -/
theorem base64Unframe_of_mem {bad : Char} {text : List Char} (translate : Bool) (hmem : bad ∈ text)
    (hbad : base64Value bad = none) (hother : bad ∉ ['-', '_', '=', ' ', '\t', '\n', '\r']) :
    base64Unframe translate text = .error .malformedText := by
  simp only [List.mem_cons, List.not_mem_nil, or_false, not_or] at hother
  obtain ⟨hdash, hunderscore, hpad, hspace, htab, hnewline, hreturn⟩ := hother
  have hkept : bad ∈ dropWhitespace text :=
    List.mem_filter.2 ⟨hmem, by simp [hspace, htab, hnewline, hreturn]⟩
  have hsubst : bad ∈ urlUnsafe (dropWhitespace text) :=
    List.mem_map.2 ⟨bad, hkept, by rw [if_neg hdash, if_neg hunderscore]⟩
  rw [base64Unframe, base64Decode_of_mem hbad hpad hsubst, ite_self]

theorem base64Value_eq_none {c : Char} (hdigit : ¬ (48 ≤ c.toNat ∧ c.toNat ≤ 57))
    (hupper : ¬ (65 ≤ c.toNat ∧ c.toNat ≤ 90)) (hlower : ¬ (97 ≤ c.toNat ∧ c.toNat ≤ 122)) (hplus : c ≠ '+')
    (hslash : c ≠ '/') : base64Value c = none := by
  rw [base64Value, if_neg hupper, if_neg hlower, if_neg hdigit, if_neg hplus, if_neg hslash]

/-! ### Framing (R176 to R180, R186) -/

theorem base64Unframe_base64Encode (B : List Byte) : base64Unframe false (base64Encode B) = .ok B := by
  have hforeign : ∀ c ∈ ['-', '_'], c ∉ base64Encode B := fun c hc => base64Encode_avoids B (List.mem_append_left _ hc)
  have hwhite : ∀ c ∈ [' ', '\t', '\n', '\r'], c ∉ base64Encode B := fun c hc =>
    base64Encode_avoids B (List.mem_append_right _ hc)
  rw [base64Unframe_of_strict (translate := false) hwhite hforeign (by simp),
    urlUnsafe_eq_self hforeign, base64Decode_base64Encode]

theorem base64Unframe_urlSafe_base64Encode (B : List Byte) :
    base64Unframe true (urlSafe (base64Encode B)) = .ok B := by
  have hwhite : ∀ c ∈ [' ', '\t', '\n', '\r'], c ∉ urlSafe (base64Encode B) := fun c hc =>
    not_mem_urlSafe (base64Encode_avoids B (List.mem_append_right _ hc)) (by revert c; simp)
  have hforeign : ∀ c ∈ ['+', '/'], c ∉ urlSafe (base64Encode B) := fun c hc =>
    urlSafe_avoids _ (List.mem_append_left ['='] hc)
  rw [base64Unframe_of_strict (translate := true) hwhite hforeign fun _ => urlSafe_avoids _ (by simp),
    urlUnsafe_urlSafe fun c hc => base64Encode_avoids B (List.mem_append_left _ hc),
    base64Decode_stripPadding_base64Encode]

theorem unframe_frame (mode : OutputMode) (translate : Bool) (B : List Byte) :
    unframe mode translate (frame mode translate B) = .ok B := by
  cases mode with
  | hex => exact hexDecode_hexEncode B
  | base64 =>
    cases translate with
    | false => exact base64Unframe_base64Encode B
    | true => exact base64Unframe_urlSafe_base64Encode B

/-- The second digit of a last group of one byte ends in four zero bits, so it is one of `A`, `Q`, `g` and `w`. -/
theorem base64Char_append_zeros (x : BitVec 2) :
    base64Char (x ++ 0#4) ∉ hexDigits ∧ base64Char (x ++ 0#4) ∉ ['+', '/', '='] := by
  revert x; decide

theorem urlSafe_base64Encode_singleton_ne (a : Byte) : urlSafe (base64Encode [a]) ≠ hexEncode [a] := by
  intro heq
  obtain ⟨hhex, hkept⟩ := base64Char_append_zeros (a.extractLsb' 0 2)
  have hmem : base64Char (a.extractLsb' 0 2 ++ 0#4) ∈ urlSafe (base64Encode [a]) :=
    mem_urlSafe (by simp [base64Encode]) hkept
  exact hhex (mem_hexDigits_of_mem_hexEncode (heq ▸ hmem))

theorem base64Encode_ne_hexEncode {B : List Byte} (h : B ≠ []) : base64Encode B ≠ hexEncode B := by
  intro heq
  have hpos : 0 < B.length := List.length_pos_iff.2 h
  have hlen : 4 * ((B.length + 2) / 3) = 2 * B.length := by
    rw [← base64Encode_length, ← hexEncode_length, heq]
  have hpad : '=' ∈ hexEncode B := heq ▸ padding_mem_base64Encode (by omega)
  exact absurd (mem_hexDigits_of_mem_hexEncode hpad) (by decide)

theorem urlSafe_base64Encode_ne_hexEncode {B : List Byte} (h : B ≠ []) : urlSafe (base64Encode B) ≠ hexEncode B := by
  intro heq
  have hpos : 0 < B.length := List.length_pos_iff.2 h
  have hlen : (4 * B.length + 2) / 3 = 2 * B.length := by
    rw [← stripPadding_base64Encode_length, ← urlSafe_length, heq, hexEncode_length]
  obtain ⟨a, rfl⟩ := List.length_eq_one_iff.1 (show B.length = 1 by omega)
  exact urlSafe_base64Encode_singleton_ne a heq

/-! ### The obligations -/

/-- Settles O52: both lists of characters are the model's, and the hint is a generated key. -/
theorem keyValidationAcceptsExactlyValidKeys : Obligations.KeyValidationAcceptsExactlyValidKeys := by
  have hrejected {K : List Byte} (hK : ¬ keyValid K = true) (mode : OutputMode) (draw : Nat) :
      ∃ hint, newCipher K mode draw = .error (.invalidKey hint) ∧ hint.length = 128 :=
    ⟨_, newCipher_of_not_valid hK mode draw, generateKey_length 128 draw⟩
  refine ⟨fun K mode draw => ⟨?_, fun h => hrejected (mt (newCipher_of_valid · mode draw) h) mode draw⟩,
    fun draw => ⟨newCipher_of_valid (by decide) _ draw, ?_, ?_⟩⟩
  · simp only [newCipher_eq_ok_iff, keyValid_iff, isAlphanumeric_iff, isPunctuation_iff]
  · exact ⟨_, newCipher_of_not_valid (by decide) _ draw⟩
  · exact ⟨_, newCipher_of_not_valid (by decide) _ draw⟩

/-- Settles O53: each byte is an offset below 94 into the range. -/
theorem generatedKeysArePrintable : Obligations.GeneratedKeysArePrintable :=
  fun length draw => ⟨generateKey_length length draw, fun _ => generateKey_printable⟩

/-- Settles O54: unframing undoes framing, and the transform is its own inverse (O47). -/
theorem encodeThenDecodeReturnsInput : Obligations.EncodeThenDecodeReturnsInput := by
  intro c B translate hkey
  obtain ⟨C, hC⟩ : ∃ C, transform c.key B = some C := ⟨_, transform_of_ne_nil hkey B⟩
  refine ⟨frame c.mode translate C, by rw [Cipher.encode, hC], ?_⟩
  simp only [Cipher.decode, unframe_frame, transformIsItsOwnInverse _ _ _ hC]

/-- Settles O55: digit pairs by place, and the two kinds of malformed text by induction on the pairs. -/
theorem hexTextIsLowercasePairs : Obligations.HexTextIsLowercasePairs := by
  refine ⟨fun B => ⟨hexEncode_length B, fun c => mem_hexDigits_of_mem_hexEncode, fun n b hb => ?_⟩,
    fun text => hexDecode_of_odd_length, fun text c hmem hc => hexDecode_of_mem hmem (hexValue_eq_none hc)⟩
  obtain ⟨hhi, hlo⟩ := hexEncode_getElem? hb
  exact ⟨_, _, BitVec.isLt _, BitVec.isLt _, hhi.trans (hexDigits_getElem? _).symm, hlo.trans (hexDigits_getElem? _).symm,
    toNat_eq_nibbles b⟩

/-- Settles O56: the character has no value and survives white space dropping and substitution. -/
theorem invalidBase64CharactersAreDecodeErrors : Obligations.InvalidBase64CharactersAreDecodeErrors := by
  intro c text translate bad hmode hmem hdigit hupper hlower hother
  have hvalue : base64Value bad = none :=
    base64Value_eq_none hdigit hupper hlower (by rintro rfl; simp at hother) (by rintro rfl; simp at hother)
  have herror : unframe c.mode translate text = .error .malformedText := by
    rw [hmode]
    exact base64Unframe_of_mem translate hmem hvalue fun h => hother (List.mem_cons_of_mem _ (List.mem_cons_of_mem _ h))
  exact ⟨by rw [Cipher.decode, herror], by rw [decodeMoves, herror]⟩

/-- Settles O57: the substitution and the stripping for the characters, the groups of three for the lengths. -/
theorem urlSafeTextHasNoPlusSlashOrPadding : Obligations.UrlSafeTextHasNoPlusSlashOrPadding := fun B =>
  ⟨⟨urlSafe_avoids _ (by decide), urlSafe_avoids _ (by decide), urlSafe_avoids _ (by decide)⟩,
    (urlSafe_length _).trans (stripPadding_base64Encode_length B), base64Encode_length B⟩

/-- Settles O58: texts of the same length are those of one byte (translated), two or four bytes (padded). -/
theorem modesGiveDifferentTexts : Obligations.ModesGiveDifferentTexts := by
  refine ⟨fun B translate hB => ?_, fun translate => ?_⟩
  · cases translate with
    | false => exact base64Encode_ne_hexEncode hB
    | true => exact urlSafe_base64Encode_ne_hexEncode hB
  · cases translate with
    | false => exact ⟨rfl, rfl⟩
    | true => exact ⟨rfl, rfl⟩

end Sys2Proof.Machine
end

section

/-! ## The statements of 60_exceptions.md: the first cause of a fault (R204), fault entry (R205), and what phase FAULT
executes, holds and is left by (R207, R208). -/

namespace Sys2Proof.Machine

open Sys2Proof.Spec

@[simp] theorem takeResponse_cipher (s : State) : (takeResponse s).cipher = s.cipher := by
  unfold takeResponse; split <;> rfl

section WordsAndSteps
variable {w : Word} {s t : State}

/-! ### Fault entry (R204, R205) -/

/-- The accepted word raises the fault that the check order gives it. -/
theorem acceptWord_of_faultOf {c : ErrCode} (hlive : s.PHASE ≠ .fault) (h : faultOf w s c) (hc : c ≠ .none) :
    acceptWord w s = .next (raiseFault c s) := by
  obtain rfl := (faultOf_iff hlive).1 h
  exact acceptWord_of_wordCause_ne_none hlive hc

/-- START with a nonzero low byte fails the operand check, which stands before the phase check (R204). -/
theorem acceptWord_start_reservedOperand {lo : Byte} (hlive : s.PHASE ≠ .fault) (hlo : lo ≠ 0#8) :
    acceptWord (wordOf 0x03#8 lo) s = .next { s with ERRCODE := .reservedOperand, PHASE := .fault } := by
  have hop : (wordOf 0x03#8 lo).toNat / 256 = 3 := by rw [← opcodeOf_toNat, opcodeOf_wordOf]; rfl
  have hlow : (wordOf 0x03#8 lo).toNat % 256 ≠ 0 := by
    rw [← lowByteOf_toNat, lowByteOf_wordOf]
    exact fun h => hlo (BitVec.eq_of_toNat_eq h)
  exact acceptWord_reservedOperand_live (by omega) (by simp [legalLow, hop, hlow]) hlive

/-! ### Phase FAULT (R207, R208) -/

/-- Everything an accepted word can do in phase FAULT. -/
theorem acceptWord_fault_cases (hp : s.PHASE = .fault) (h : acceptWord w s = .next t) :
    t = s ∨ (∃ b, t = emit b s) ∨ (w = 0x0700#16 ∧ t = softReset s) := by
  obtain rfl | hnop := eq_or_ne w (encode .nop)
  · exact .inl (Host.Outcome.next.inj (h.symm.trans (acceptWord_encode s rfl)))
  obtain rfl | hstatus := eq_or_ne w (encode (.rdst 0#8))
  · exact .inr (.inl ⟨_, Host.Outcome.next.inj (h.symm.trans (acceptWord_encode s rfl))⟩)
  obtain rfl | hkeylen := eq_or_ne w (encode (.rdst 1#8))
  · exact .inr (.inl ⟨_, Host.Outcome.next.inj (h.symm.trans (acceptWord_encode s rfl))⟩)
  obtain rfl | hrst := eq_or_ne w (encode .rst)
  · exact .inr (.inr ⟨rfl, Host.Outcome.next.inj (h.symm.trans (acceptWord_encode s rfl))⟩)
  exact .inl (Host.Outcome.next.inj (h.symm.trans (acceptWord_fault hp hnop hstatus hkeylen hrst)))

/-- What phase FAULT holds until a reset: the seven items of the block (R20). The response port is not among
them: RDST answers a byte here too, and the host takes it. -/
structure FaultHeld (s t : State) : Prop where
  phase : t.PHASE = s.PHASE
  errcode : t.ERRCODE = s.ERRCODE
  klen : t.KLEN = s.KLEN
  keymem : t.KEYMEM = s.KEYMEM
  cipher : t.cipher = s.cipher

/-- Everything a step can do in phase FAULT: it holds the block, or it is one of the two exits (R208). -/
theorem step_fault_cases (hp : s.PHASE = .fault) (h : step s = .next t) :
    FaultHeld s t ∨
    (∃ rest, Presents s 0x0700#16 rest ∧ t = softReset (s.withHost rest)) ∨
    (∃ rest, nextEvent s.RSP.isSome s.host = some (.reset, rest) ∧ t = hardwareReset (s.withHost rest)) := by
  obtain ⟨-, rfl⟩ | ⟨w, rest, hr, hh, hw⟩ | ⟨rest, -, rfl⟩ | hreset := step_cases h
  · exact .inl ⟨rfl, rfl, rfl, rfl, rfl⟩
  · obtain rfl | ⟨b, rfl⟩ | ⟨rfl, rfl⟩ := acceptWord_fault_cases (s := s.withHost rest) hp hw
    · exact .inl ⟨rfl, rfl, rfl, rfl, rfl⟩
    · exact .inl ⟨rfl, rfl, rfl, rfl, rfl⟩
    · exact .inr (.inl ⟨rest, ⟨hr, hh⟩, rfl⟩)
  · exact .inl ⟨by simp, by simp, by simp, by simp, by simp⟩
  · exact .inr (.inr hreset)

/-- A step that stays in phase FAULT is none of the exits. -/
theorem faultHeld_of_step (hp : s.PHASE = .fault) (h : step s = .next t) (ht : t.PHASE = .fault) : FaultHeld s t := by
  obtain hheld | ⟨rest, -, rfl⟩ | ⟨rest, -, rfl⟩ := step_fault_cases hp h
  · exact hheld
  · cases ht
  · cases ht

end WordsAndSteps

/-! ### The obligations -/

/-- Settles O21: `wordCause` is the one outcome of the check order and the code the machine reports; the clauses about KLEN
are the invariant's, which every step keeps. -/
theorem firstCauseIsReported : Obligations.FirstCauseIsReported := by
  refine ⟨fun w s hlive => ⟨wordCause w s, (faultOf_iff hlive).2 rfl, fun c' => (faultOf_iff hlive).1⟩,
    fun w s c => acceptWord_of_faultOf, fun w s hlive hnone => ?_,
    fun w s hlive hop => acceptWord_of_faultOf hlive (.inl ⟨hop, rfl⟩) (by decide),
    fun s lo hrun => acceptWord_start_reservedOperand (by simp [hrun]), fun s hrun => ⟨?_, ?_⟩,
    fun s hs => hs.run_has_key, fun s t hs h => (step_inv hs h).run_has_key⟩
  · obtain ⟨i, t, -, haccept, hexec, ht⟩ := acceptWord_of_wordCause_eq_none hlive ((faultOf_iff hlive).1 hnone).symm
    exact ⟨t, haccept.trans hexec, ht⟩
  · exact acceptWord_start_reservedOperand (lo := 1#8) (by simp [hrun]) (by decide)
  · exact (acceptWord_encode (i := .start) s rfl).trans (exec_keyCommand_run hrun (.inr (.inl rfl)))

/-- Settles O22: outside phase FAULT a wait and a take keep PHASE and a reset gives IDLE, so the step was on a word, and that
word failed a check. -/
theorem faultEntryIsPrecise : Obligations.FaultEntryIsPrecise := by
  intro s t hlive h ht
  obtain ⟨-, rfl⟩ | ⟨w, rest, hr, hh, hw⟩ | ⟨rest, -, rfl⟩ | ⟨rest, -, rfl⟩ := step_cases h
  · exact absurd ht hlive
  · have hcause := wordCause_ne_none_of_fault (s := s.withHost rest) hlive hw ht
    rw [acceptWord_of_wordCause_ne_none (s := s.withHost rest) hlive hcause] at hw
    obtain rfl := Host.Outcome.next.inj hw
    exact ⟨w, rest, ⟨hr, hh⟩, hcause, (faultOf_iff (s := s.withHost rest) hlive).2 rfl, rfl⟩
  · exact absurd ((takeResponse_PHASE (s := s.withHost rest)).symm.trans ht) hlive
  · cases ht

/-- Settles O23: `acceptWord_fault` refuses every word but the four, whose commands do in FAULT what they do elsewhere. -/
theorem faultPhaseIsFailStopped : Obligations.FaultPhaseIsFailStopped :=
  ⟨fun s hp => ⟨fun _ => acceptWord_fault hp, acceptWord_encode (i := .nop) s rfl,
    ⟨statusByte s, acceptWord_encode (i := .rdst 0#8) s rfl⟩, ⟨klenLow s, acceptWord_encode (i := .rdst 1#8) s rfl⟩,
    acceptWord_encode (i := .rst) s rfl⟩,
    fun _ _ hp h ht => (faultHeld_of_step hp h ht).errcode⟩

/-- Settles O24: the exits are the last two cases of `step_fault_cases`, and each of them is taken when it is presented. -/
theorem faultLastsUntilReset : Obligations.FaultLastsUntilReset := by
  refine fun s t hp h => ⟨fun hleft => ?_, fun ht => ?_, fun rest ⟨hr, hh⟩ => ?_, fun rest hh => ?_⟩
  · obtain hheld | ⟨rest, hpres, rfl⟩ | ⟨rest, hnext, rfl⟩ := step_fault_cases hp h
    · exact absurd (hheld.phase.trans hp) hleft
    · exact ⟨rfl, rfl, rfl, .inl ⟨rest, hpres⟩⟩
    · exact ⟨rfl, rfl, rfl, .inr ⟨rest, hnext⟩⟩
  · obtain ⟨-, herrcode, hklen, hkeymem, hcipher⟩ := faultHeld_of_step hp h ht
    exact ⟨herrcode, hklen, hkeymem, hcipher⟩
  · cases h.symm.trans (step_command_ok hr hh (decode_encode (i := .rst) rfl))
    rfl
  · cases h.symm.trans (step_reset hh)
    rfl

end Sys2Proof.Machine
end

section

/-! ## The statements of 70_reset_and_hazards.md: the stall while a response byte is pending (R236), the step that always
answers (R239), and the hardware reset (R231). -/

namespace Sys2Proof.Machine

section Pending
variable {s t : State} {b : Byte}

/-- Everything a step can do while a response byte is pending: it waits, or the first move behind the presented words happens,
which is the take or a reset (R236). -/
theorem step_pending_cases (hb : s.RSP = some b) (h : step s = .next t) :
    t = s ∨ ∃ (ws : List Word) (rest : List HostEvent),
      (s.host = ws.map .command ++ .take :: rest ∧
        t = { s with host := ws.map .command ++ rest, RSP := none, received := s.received ++ [b] }) ∨
      (s.host = ws.map .command ++ .reset :: rest ∧
        t = State.afterReset s.resets (ws.map .command ++ rest) s.received) := by
  have hbusy : s.RSP.isSome = true := by rw [hb, Option.isSome_some]
  obtain ⟨-, rfl⟩ | ⟨w, rest, hnone, -, -⟩ | ⟨left, hnext, rfl⟩ | ⟨left, hnext, rfl⟩ := step_cases h
  · exact .inl rfl
  · cases hb.symm.trans hnone
  · rw [hbusy] at hnext
    obtain ⟨-, ws, rest, hhost, rfl⟩ := nextEvent_true_cases hnext
    exact .inr ⟨ws, rest, .inl ⟨hhost, takeResponse_some hb⟩⟩
  · rw [hbusy] at hnext
    obtain ⟨-, ws, rest, hhost, rfl⟩ := nextEvent_true_cases hnext
    exact .inr ⟨ws, rest, .inr ⟨hhost, rfl⟩⟩

/-- With nothing but words left, a pending response byte makes every step a wait (R236). -/
theorem step_pending_words {ws : List Word} (hb : s.RSP = some b) (hh : s.host = ws.map .command) :
    step s = .next s := by
  apply step_wait
  rw [hb, Option.isSome_some]
  exact nextEvent_true_none.2 ⟨ws, hh⟩

end Pending

/-! ### The obligations -/

/-- Settles O12: a step that is no wait takes only the take or the reset off the host's moves (`step_pending_cases`); with
words alone left every step is a wait. -/
theorem pendingResponseBlocksCommands : Obligations.PendingResponseBlocksCommands := by
  refine ⟨fun s t b hb h => ?_, fun s b ws n hb hh => run_stay (step_pending_words hb hh) n⟩
  obtain rfl | ⟨ws, rest, ⟨hhost, rfl⟩ | ⟨hhost, rfl⟩⟩ := step_pending_cases hb h
  · exact ⟨rfl, .inl rfl⟩
  · exact ⟨by simp [hhost], .inr (.inl ⟨by simp [hhost], rfl⟩)⟩
  · exact ⟨by simp [hhost, State.afterReset], .inr (.inr ⟨by simp [hhost], rfl⟩)⟩

/-- Settles O13: no move, no accepted word and no command stops the block. -/
theorem stepAlwaysAnswersNext : Obligations.StepAlwaysAnswersNext := ⟨step_next, exec_next⟩

/-- Settles O14: a reset at the head of the moves happens whatever the response port holds (`step_reset`). -/
theorem hardwareResetGivesResetState : Obligations.HardwareResetGivesResetState := fun _ _ hh =>
  ⟨_, step_reset hh, rfl, rfl, rfl, rfl, rfl, rfl⟩

end Sys2Proof.Machine
end
